-- ==== Sys2Proof/Word.lean ====
section
/-! DEFINITION. The word types of the LS-8 CORE: bytes and addresses, both 8 bits wide (00_scope.md R5, R6). -/

namespace Sys2Proof

/-- A register, a memory cell, the flags register or an instruction byte: 8 bits (`XLEN`, R5). -/
abbrev Byte := BitVec 8

/-- An address of the one 256-byte address space, and the program counter: 8 bits (R14, R31). Sums of
addresses wrap modulo 256 (R35). -/
abbrev Addr := BitVec 8

end Sys2Proof
end

