-- ==== Sys2Proof/Syntax.lean ====
section
/-! DEFINITION. The instruction set as syntax: one constructor per row of spec/opcode_table.json (30_encoding.md R55). -/

namespace Sys2Proof

/-- A register number that has passed phase F, so `0 <= r <= 7` (R10, R53, R76). -/
abbrev Reg := Fin 8

/-- The 29 instructions. `a` and `b` are register numbers, `imm` is the 8-bit immediate of R54. -/
inductive Instr where
  -- format F0: no operand
  | nop
  | hlt
  | ret
  | iret
  -- format F1: one register number
  | push (a : Reg)
  | pop (a : Reg)
  | prn (a : Reg)
  | pra (a : Reg)
  | call (a : Reg)
  | int (a : Reg)
  | jmp (a : Reg)
  | jeq (a : Reg)
  | jne (a : Reg)
  | inc (a : Reg)
  | dec (a : Reg)
  | not (a : Reg)
  -- formats F2RI and F2RR: a register number, then an immediate or a second register number
  | ldi (a : Reg) (imm : Byte)
  | ld (a b : Reg)
  | st (a b : Reg)
  | add (a b : Reg)
  | mul (a b : Reg)
  | mod (a b : Reg)
  | addi (a : Reg) (imm : Byte)
  | cmp (a b : Reg)
  | and (a b : Reg)
  | or (a b : Reg)
  | xor (a b : Reg)
  | shl (a b : Reg)
  | shr (a b : Reg)
deriving DecidableEq, Repr

end Sys2Proof
end

