-- ==== Sys2Proof/Config.lean ====
section
/-! DEFINITION. What one implementation fixes: the constants and the named parameters of 00_scope.md R5. -/

namespace Sys2Proof

/-- `MEM_SIZE` (R5): the number of memory bytes. -/
abbrev memSize : Nat := 256

/-- `SP_RESET` (R5): reset value of `x[7]`. -/
abbrev spReset : Byte := 0xF4#8

/-- `STACK_EMPTY` (R5): POP underflows when `x[7]` is above this. -/
abbrev stackEmpty : Byte := 0xF3#8

/-- `VECTOR_BASE` (R5): the slot of interrupt i is at `0xF8 + i`. -/
abbrev vectorBase : Addr := 0xF8#8

/-- `IM_INDEX` (R5, R11). -/
abbrev regIM : Reg := 5

/-- `IS_INDEX` (R5, R12). -/
abbrev regIS : Reg := 6

/-- `SP_INDEX` (R5, R13). -/
abbrev regSP : Reg := 7

/-- `INT_PC_POLICY` (R5, R150). -/
inductive IntPcPolicy where
  /-- INT leaves `pc` unchanged (the default). -/
  | hold
  /-- INT adds 2 to `pc`. -/
  | advance2
deriving DecidableEq, Repr

/-- `REGIDX_POLICY` (R5, R53, R76). -/
inductive RegIdxPolicy where
  /-- A register number above 7 halts the core with code 5 (the default). -/
  | fault
  /-- The register number is bits 2:0 of the operand byte. -/
  | mask3
deriving DecidableEq, Repr

/-- The parameters of R5 that the spec leaves to an implementation. DESIGN CHOICE (log 1): a machine's
parameters stand in the field `cfg` of State, since `exec` takes a state only; nothing changes them. -/
structure Config where
  /-- `IE_RESET` (R16, R23). -/
  ieReset : Bool
  /-- `GPR_RESET`: reset value of `x[0]` to `x[6]` (R23). -/
  gprReset : Byte
  /-- `FL_RESET`: reset value of `fl` (R23). -/
  flReset : Byte
  /-- `RET_POPS` (R125). -/
  retPops : Bool
  /-- `INT_PC_POLICY` (R150). -/
  intPcPolicy : IntPcPolicy
  /-- `OPC_ADDI` (R55, R102). -/
  opcAddi : Byte
  /-- `REGIDX_POLICY` (R76). -/
  regIdxPolicy : RegIdxPolicy
  /-- `HAS_IRQ0_INPUT` (R22). -/
  hasIrq0 : Bool
deriving DecidableEq, Repr

/-- The defaults of R5. -/
def Config.default : Config where
  ieReset := false
  gprReset := 0#8
  flReset := 0#8
  retPops := false
  intPcPolicy := .hold
  opcAddi := 0xA5#8
  regIdxPolicy := .fault
  hasIrq0 := true

/-- FREE VALUE (log 2): what the environment puts on `irq0_req` in the cycle with that number, for every cycle whose value
State does not list. It has no body, so a statement holds for any sequence of booleans (R22). -/
opaque Config.irq0Input : Nat → Bool

end Sys2Proof
end

