-- ==== Sys2Proof/WellFormed.lean ====
section
/-! DEFINITION. Well-formedness: a legal parameter set (00_scope.md R5), a program image that fits (R192), and the
instruction bytes that stand for an instruction (30_encoding.md R50 to R56). A term of Instr needs no check of its own:
its register operands are `Fin 8` and its immediates are bytes. -/

namespace Sys2Proof

/-- The four instruction formats of R50. -/
inductive Format where
  | f0
  | f1
  | f2rr
  | f2ri
deriving DecidableEq, Repr

/-- The opcode values of R55 by format, ADDI's parameter left out. -/
def fixedOpcodesOf : Format → List Byte
  | .f0 => [0x00#8, 0x01#8, 0x11#8, 0x13#8]
  | .f1 => [0x45#8, 0x46#8, 0x47#8, 0x48#8, 0x50#8, 0x52#8, 0x54#8, 0x55#8, 0x56#8, 0x65#8, 0x66#8, 0x69#8]
  | .f2rr => [0x83#8, 0x84#8, 0xA0#8, 0xA2#8, 0xA4#8, 0xA7#8, 0xA8#8, 0xAA#8, 0xAB#8, 0xAC#8, 0xAD#8]
  | .f2ri => [0x82#8]

/-- The 28 opcode values of R55 that are not a parameter. -/
def fixedOpcodes : List Byte :=
  fixedOpcodesOf .f0 ++ fixedOpcodesOf .f1 ++ fixedOpcodesOf .f2rr ++ fixedOpcodesOf .f2ri

/-- `OPC_ADDI` has `bits[7:6] = 10` (R5). -/
def Config.addiHasTwoOperands (c : Config) : Bool := c.opcAddi.extractLsb' 6 2 == 0b10#2

/-- `OPC_ADDI` has `bits[4] = 0` (R5). -/
def Config.addiLeavesPcToDispatcher (c : Config) : Bool := !c.opcAddi.getLsbD 4

/-- `OPC_ADDI` differs from every other opcode of R55 (R5). -/
def Config.addiIsDistinct (c : Config) : Bool := !fixedOpcodes.contains c.opcAddi

/-- A parameter set the spec allows: R5 constrains `OPC_ADDI` and nothing else. -/
def Config.wellFormed (c : Config) : Bool :=
  c.addiHasTwoOperands && c.addiLeavesPcToDispatcher && c.addiIsDistinct

/-- An image fits in the 256 bytes (R192, D18). -/
def imageWellFormed (image : List Byte) : Bool := image.length ≤ memSize

/-- The format of an opcode byte, for the 29 recognized values (R50, R55). -/
def formatOf (c : Config) (ir : Byte) : Option Format :=
  if (fixedOpcodesOf .f0).contains ir then some .f0
  else if (fixedOpcodesOf .f1).contains ir then some .f1
  else if (fixedOpcodesOf .f2rr).contains ir then some .f2rr
  else if (fixedOpcodesOf .f2ri).contains ir || ir == c.opcAddi then some .f2ri
  else none

/-- An operand byte that names a register (R53): 0 to 7, or any byte under `mask3`. -/
def regByteWellFormed (c : Config) (b : Byte) : Bool :=
  match c.regIdxPolicy with
  | .fault => b.toNat ≤ 7
  | .mask3 => true

/-- The bytes at `pc`, `pc + 1` and `pc + 2` stand for an instruction: the opcode is recognized (R56) and every byte
that R52 makes a register number names one (R53). Bytes beyond the instruction's length do not matter. -/
def bytesWellFormed (c : Config) (ir opA opB : Byte) : Bool :=
  match formatOf c ir with
  | none => false
  | some .f0 => true
  | some .f1 => regByteWellFormed c opA
  | some .f2ri => regByteWellFormed c opA
  | some .f2rr => regByteWellFormed c opA && regByteWellFormed c opB

end Sys2Proof
end

