-- ==== Sys2Proof/Decode.lean ====
section
/-! DEFINITION. The decoder (phases E and F of the cycle, 40_fetch_decode_cycle.md R73 to R76), total on any bytes, and
after it the encoder, both from the opcode table of 30_encoding.md R55. -/

namespace Sys2Proof

/-! ### Fields of the opcode byte -/

/-- `nops = opcode >> 6` (R50, R73). -/
def nops (ir : Byte) : Nat := (ir >>> 6).toNat

/-- `sets_pc = opcode[4]` (R51, R73). -/
def setsPc (ir : Byte) : Bool := ir.getLsbD 4

/-- The operand bytes phase D reads: `nops` of them, and none when `nops = 3` (R74). -/
def operandCount (ir : Byte) : Nat := if nops ir = 3 then 0 else nops ir

/-! ### The opcode table -/

/-- How the operand bytes of a recognized opcode make its instruction (the formats of R50). -/
inductive Shape where
  | f0 (i : Instr)
  | f1 (mk : Reg → Instr)
  | f2rr (mk : Reg → Reg → Instr)
  | f2ri (mk : Reg → Byte → Instr)

/-- The 29 rows of R55. ADDI's opcode is the parameter `OPC_ADDI`; its row stands last, so that in an illegal
parameter set the 28 fixed rows keep their meaning (log 14). -/
def opcodeTable (c : Config) : List (Byte × Shape) :=
  [ (0x00#8, .f0 .nop), (0x01#8, .f0 .hlt), (0x11#8, .f0 .ret), (0x13#8, .f0 .iret),
    (0x45#8, .f1 .push), (0x46#8, .f1 .pop), (0x47#8, .f1 .prn), (0x48#8, .f1 .pra),
    (0x50#8, .f1 .call), (0x52#8, .f1 .int), (0x54#8, .f1 .jmp), (0x55#8, .f1 .jeq), (0x56#8, .f1 .jne),
    (0x65#8, .f1 .inc), (0x66#8, .f1 .dec), (0x69#8, .f1 .not),
    (0x82#8, .f2ri .ldi), (0x83#8, .f2rr .ld), (0x84#8, .f2rr .st),
    (0xA0#8, .f2rr .add), (0xA2#8, .f2rr .mul), (0xA4#8, .f2rr .mod), (0xA7#8, .f2rr .cmp),
    (0xA8#8, .f2rr .and), (0xAA#8, .f2rr .or), (0xAB#8, .f2rr .xor), (0xAC#8, .f2rr .shl), (0xAD#8, .f2rr .shr),
    (c.opcAddi, .f2ri .addi) ]

/-- Phase E: the exact match of all 8 opcode bits (R51, R75). -/
def lookupOpcode (c : Config) (ir : Byte) : Option Shape := (opcodeTable c).lookup ir

/-! ### The decoder -/

/-- Why bytes are no instruction. Both are fatal errors of the machine (R162, R165), with the information R160 records. -/
inductive Reject where
  /-- The opcode byte is none of the 29 (R56, R75). -/
  | unrecognizedOpcode (ir : Byte)
  /-- A register-number byte is above 7 under `REGIDX_POLICY = fault` (R53, R76). `opB` is present only where the
  instruction has a second operand byte (R18; log 7). -/
  | regIdx (ir opA : Byte) (opB : Option Byte)
deriving DecidableEq, Repr

/-- Phase F for one operand byte: the register it names (R53, R76). -/
def decodeReg (c : Config) (b : Byte) : Option Reg :=
  match c.regIdxPolicy with
  | .fault => if h : b.toNat < 8 then some ⟨b.toNat, h⟩ else none
  | .mask3 => some ⟨b.toNat % 8, Nat.mod_lt _ (by decide)⟩

/-- Phases E and F on the bytes at `pc`, `pc + 1` and `pc + 2`. A byte beyond the instruction's length is ignored: R74
lets a model read operands it does not use, reads having no side effect (R36). -/
def decodeInstr (c : Config) (ir opA opB : Byte) : Except Reject Instr :=
  match lookupOpcode c ir with
  | none => .error (.unrecognizedOpcode ir)
  | some (.f0 i) => .ok i
  | some (.f1 mk) =>
    match decodeReg c opA with
    | some a => .ok (mk a)
    | none => .error (.regIdx ir opA none)
  | some (.f2rr mk) =>
    match decodeReg c opA, decodeReg c opB with
    | some a, some b => .ok (mk a b)
    | _, _ => .error (.regIdx ir opA (some opB))
  | some (.f2ri mk) =>
    match decodeReg c opA with
    | some a => .ok (mk a opB)
    | none => .error (.regIdx ir opA (some opB))

/-- What decoding the front of a byte sequence gives. -/
inductive StreamResult where
  /-- An instruction and the bytes after it. -/
  | instr (i : Instr) (rest : List Byte)
  /-- The bytes are no instruction. -/
  | rejected (r : Reject)
  /-- The sequence ends inside an instruction (cannot happen to the machine, whose addresses wrap, R35). -/
  | truncated
deriving DecidableEq, Repr

/-- Decode the first instruction of a byte sequence: `opcode[7:6] + 1` bytes in ascending order (R32, R59). -/
def decode (c : Config) : List Byte → StreamResult
  | [] => .truncated
  | ir :: rest =>
    match lookupOpcode c ir with
    | none => .rejected (.unrecognizedOpcode ir)
    | some _ =>
      if rest.length < operandCount ir then .truncated
      else
        match decodeInstr c ir (rest.getD 0 0#8) (rest.getD 1 0#8) with
        | .ok i => .instr i (rest.drop (operandCount ir))
        | .error r => .rejected r

/-- Byte `k` of a word numbered as spec/opcode_table.json numbers it: byte 0 is the opcode. -/
def wordByte (w k : Nat) : Byte := BitVec.ofNat 8 (w / 2 ^ (8 * k))

/-- The instruction the decoder reads, at the default parameters, from an opcode-table word of `nbits` bits, the bits
above them zero. -/
def decodeTableWord (nbits w : Nat) : Option Instr :=
  let v := w % 2 ^ nbits
  match decodeInstr Config.default (wordByte v 0) (wordByte v 1) (wordByte v 2) with
  | .ok i => some i
  | .error _ => none

/-! ### The encoder -/

/-- The opcode byte of an instruction (R55). -/
def opcode (c : Config) : Instr → Byte
  | .nop => 0x00#8
  | .hlt => 0x01#8
  | .ret => 0x11#8
  | .iret => 0x13#8
  | .push _ => 0x45#8
  | .pop _ => 0x46#8
  | .prn _ => 0x47#8
  | .pra _ => 0x48#8
  | .call _ => 0x50#8
  | .int _ => 0x52#8
  | .jmp _ => 0x54#8
  | .jeq _ => 0x55#8
  | .jne _ => 0x56#8
  | .inc _ => 0x65#8
  | .dec _ => 0x66#8
  | .not _ => 0x69#8
  | .ldi _ _ => 0x82#8
  | .ld _ _ => 0x83#8
  | .st _ _ => 0x84#8
  | .add _ _ => 0xA0#8
  | .mul _ _ => 0xA2#8
  | .mod _ _ => 0xA4#8
  | .addi _ _ => c.opcAddi
  | .cmp _ _ => 0xA7#8
  | .and _ _ => 0xA8#8
  | .or _ _ => 0xAA#8
  | .xor _ _ => 0xAB#8
  | .shl _ _ => 0xAC#8
  | .shr _ _ => 0xAD#8

/-- A register number as an operand byte, `00000rrr` (R53). -/
def regByte (r : Reg) : Byte := BitVec.ofNat 8 r.val

/-- The operand bytes of an instruction, A before B (R50, R61). -/
def operandBytes : Instr → List Byte
  | .nop => []
  | .hlt => []
  | .ret => []
  | .iret => []
  | .push a => [regByte a]
  | .pop a => [regByte a]
  | .prn a => [regByte a]
  | .pra a => [regByte a]
  | .call a => [regByte a]
  | .int a => [regByte a]
  | .jmp a => [regByte a]
  | .jeq a => [regByte a]
  | .jne a => [regByte a]
  | .inc a => [regByte a]
  | .dec a => [regByte a]
  | .not a => [regByte a]
  | .ldi a imm => [regByte a, imm]
  | .ld a b => [regByte a, regByte b]
  | .st a b => [regByte a, regByte b]
  | .add a b => [regByte a, regByte b]
  | .mul a b => [regByte a, regByte b]
  | .mod a b => [regByte a, regByte b]
  | .addi a imm => [regByte a, imm]
  | .cmp a b => [regByte a, regByte b]
  | .and a b => [regByte a, regByte b]
  | .or a b => [regByte a, regByte b]
  | .xor a b => [regByte a, regByte b]
  | .shl a b => [regByte a, regByte b]
  | .shr a b => [regByte a, regByte b]

/-- The bytes of an instruction in address order (R32, R50). -/
def encode (c : Config) (i : Instr) : List Byte := opcode c i :: operandBytes i

end Sys2Proof
end

