-- ==== Sys2Proof/Machine/State.lean ====
section
/-! DEFINITION. The state of the machine (10_state.md), its fault and refusal types, and the state after reset (R23). -/

namespace Sys2Proof.Machine

/-- The exit codes of the core (60_exceptions.md R160). Code 2 is the loader's and no state of the core holds it. -/
inductive ExitCode where
  /-- 0: HLT. -/
  | normalHalt
  /-- 1: UNRECOGNIZED_OPCODE. -/
  | unrecognizedOpcode
  /-- 3: STACK_UNDERFLOW. -/
  | stackUnderflow
  /-- 4: DIVISION_BY_ZERO. -/
  | divisionByZero
  /-- 5: REGIDX. -/
  | regIdx
deriving DecidableEq, Repr

/-- The run state (R17). -/
inductive RunState where
  | running
  | halted (code : ExitCode)
deriving DecidableEq, Repr

/-- A fatal error with the information recorded for it (R160, R161). -/
inductive Fatal where
  /-- Codes 1 and 5: the bytes fetched are no instruction (R162, R165). -/
  | decode (r : Reject)
  /-- Code 3 (R163). -/
  | stackUnderflow
  /-- Code 4 (R164). -/
  | divisionByZero
deriving DecidableEq, Repr

/-- An output event (R20): `(PRN, v)` or `(PRA, v)`. -/
inductive OutEvent where
  | prn (v : Byte)
  | pra (v : Byte)
deriving DecidableEq, Repr

/-- Memory: the cells that are not zero, addresses strictly rising (`Memory.wf`). A cell not listed reads 0, as memory
beyond the image does after reset (R23, R192; log 16). -/
abbrev Memory := List Host.Cell

/-- The whole state: the spec's tuple `(x[0..7], pc, fl, ie, run, mem, out, diag)` (10_state.md), and three fields of
the model's own, for the input and the parameters. -/
structure State where
  /-- `x[0]` to `x[7]` (R10 to R13). -/
  x : Vector Byte 8
  /-- The program counter (R14). -/
  pc : Addr
  /-- The flags register (R15). -/
  fl : Byte
  /-- The interrupts-enabled flag (R16). -/
  ie : Bool
  /-- The run state (R17). -/
  run : RunState
  /-- The 256 bytes of memory (R30). -/
  mem : Memory
  /-- The output events since reset, oldest first (R20). -/
  out : List OutEvent
  /-- The diagnostic record (R21; log 6). -/
  diag : Option Fatal
  /-- MODEL'S OWN (log 2): the values `irq0_req` takes in the next cycles where they are known, the next cycle's first
  (R22). After them the input is the free value `Config.irq0Input`. -/
  irq0 : List Bool
  /-- MODEL'S OWN (log 2): how many values `irq0_req` has had, the argument of `Config.irq0Input`. No instruction reads it. -/
  inputCount : Nat
  /-- MODEL'S OWN (log 1): the machine's parameters (R5), which nothing changes. -/
  cfg : Config
deriving DecidableEq, Repr

/-- Why the machine stops with a fault. No constructor: every condition under which the spec stops the core is a
described state, `Halted(code)` (R160, R161), and is a NEXT state of the model (log 5). Safe. -/
inductive Fault where
deriving DecidableEq, Repr

/-- Why the model gives no next state. `step` raises none of them. -/
inductive Refusal where
  /-- Raised by an arm of `exec` whose instruction has no meaning yet; safe. No arm raises it. -/
  | notModelled (mnemonic : String)
  /-- Raised by `resetWith` for an image of more than 256 bytes, which R192 refuses; safe. -/
  | imageTooLong
  /-- Raised by `resetWith` for an `OPC_ADDI` that R5 does not allow; safe. -/
  | illegalConfig
deriving DecidableEq, Repr

/-- The state right after reset at the default parameters, with no image placed (R23, R191).
The source gives `x[7]`, `pc`, `ie`, memory and `out`; the zeros of `x[0..6]` and `fl` are the spec's decision D11
(log 3); the empty `irq0`, which leaves every input free, and the 0 of `inputCount` are a DESIGN CHOICE (log 2). -/
def State.reset : State where
  x := #v[0#8, 0#8, 0#8, 0#8, 0#8, 0#8, 0#8, 0xF4#8]
  pc := 0#8
  fl := 0#8
  ie := false
  run := .running
  mem := []
  out := []
  diag := none
  irq0 := []
  inputCount := 0
  cfg := Config.default

end Sys2Proof.Machine
end

