-- ==== Sys2Proof/Machine/Ops.lean ====
section
/-! DEFINITION. The named operations over memory and registers: the primitives of 00_scope.md R7, the stack of
43_stack.md, fatal errors and interrupt entry and return of 60_exceptions.md, the phases of 40_fetch_decode_cycle.md,
and reset. -/

namespace Sys2Proof.Machine

/-- The result of one instruction or one cycle. -/
abbrev Result := Host.Outcome State Fault Refusal

/-- `trunc8(v) = v mod 256` for any integer (R6). -/
def trunc8 (v : Int) : Byte := BitVec.ofInt 8 v

/-! ### Memory cells -/

/-- The byte at an address; 0 where none is listed (R36; log 16). -/
def Memory.read : Memory → Nat → Byte
  | [], _ => 0#8
  | (b, w) :: m, a => if a = b then w else Memory.read m a

/-- Store a byte, keeping the canonical form: storing 0 removes the entry (R36). -/
def Memory.write : Memory → Nat → Byte → Memory
  | [], a, v => if v = 0#8 then [] else [(a, v)]
  | (b, w) :: m, a, v =>
    if a < b then (if v = 0#8 then (b, w) :: m else (a, v) :: (b, w) :: m)
    else if a = b then (if v = 0#8 then m else (a, v) :: m)
    else (b, w) :: Memory.write m a v

/-- Addresses are at least `lo`, strictly rising and below 256, and no entry is 0. -/
def Memory.wfFrom : Nat → Memory → Bool
  | _, [] => true
  | lo, (b, w) :: m => lo ≤ b && b < memSize && w != 0#8 && Memory.wfFrom (b + 1) m

/-- The canonical form of memory. -/
def Memory.wf (m : Memory) : Bool := Memory.wfFrom 0 m

/-! ### Register, memory and control accesses (R7) -/

/-- `x[r]`. -/
def State.reg (s : State) (r : Reg) : Byte := s.x[r]

/-- `x[r] <- v`. No register is hardwired (R10). -/
def State.setReg (s : State) (r : Reg) (v : Byte) : State := { s with x := s.x.set r v }

/-- `pc <- target`. -/
def State.setPc (s : State) (target : Addr) : State := { s with pc := target }

/-- `fl <- v`. -/
def State.setFl (s : State) (v : Byte) : State := { s with fl := v }

/-- `ie <- b`. -/
def State.setIe (s : State) (b : Bool) : State := { s with ie := b }

/-- `MemRead(a, 1)`: every address is readable, without side effect (R33, R36). -/
def State.memRead (s : State) (a : Addr) : Byte := Memory.read s.mem a.toNat

/-- `MemWrite(a, 1, v)`: every address is writable (R33, R36). -/
def State.memWrite (s : State) (a : Addr) (v : Byte) : State := { s with mem := Memory.write s.mem a.toNat v }

/-- `Out(kind, v)`: append one event (R20). -/
def State.emit (s : State) (e : OutEvent) : State := { s with out := s.out ++ [e] }

/-! ### Halting and fatal errors -/

/-- The number of an exit code (R160). -/
def ExitCode.toNat : ExitCode → Nat
  | .normalHalt => 0
  | .unrecognizedOpcode => 1
  | .stackUnderflow => 3
  | .divisionByZero => 4
  | .regIdx => 5

/-- The exit code of a fatal error (R160). -/
def Fatal.code : Fatal → ExitCode
  | .decode (.unrecognizedOpcode _) => .unrecognizedOpcode
  | .decode (.regIdx _ _ _) => .regIdx
  | .stackUnderflow => .stackUnderflow
  | .divisionByZero => .divisionByZero

/-- `halt(0)`: HLT's normal termination (R7, R147). -/
def State.halt (s : State) : State := { s with run := .halted .normalHalt }

/-- `raise Fatal(code, info)`: the one operation of every fatal error (R161). `pc` keeps the address of the failing
instruction and nothing else changes. -/
def State.fatal (s : State) (f : Fatal) : State := { s with run := .halted f.code, diag := some f }

/-! ### The stack pointer unit (R130 to R132) -/

/-- `push(v)`: decrement SP, then store at the new SP (R130). -/
def State.push (s : State) (v : Byte) : State :=
  let s := s.setReg regSP (s.reg regSP - 1#8)
  s.memWrite (s.reg regSP) v

/-- The value `pop()` returns and the state it leaves: read at the old SP, then increment SP; no underflow test (R131). -/
def State.pop (s : State) : Byte × State :=
  (s.memRead (s.reg regSP), s.setReg regSP (s.reg regSP + 1#8))

/-- `peek()` (R132). -/
def State.peek (s : State) : Byte := s.memRead (s.reg regSP)

/-! ### Interrupt request, entry and return -/

/-- `if n <= 7: x[6] <- x[6] | (1 << n)`: a request for interrupt n; a number above 7 requests nothing (R150, D8). -/
def State.requestInterrupt (s : State) (n : Nat) : State :=
  if n ≤ 7 then s.setReg regIS (s.reg regIS ||| 1#8 <<< n) else s

/-- The vector slot of interrupt i (R171). -/
def vectorAddr (i : Fin 8) : Addr := vectorBase + BitVec.ofNat 8 i.val

/-- `interrupt_entry(i)`, statement by statement (R170, R171; register order R0 first, 90_conflicts.md C1). -/
def State.interruptEntry (s : State) (i : Fin 8) : State :=
  let s := s.setIe false
  let s := s.setReg regIS (s.reg regIS &&& ~~~(1#8 <<< i.val))
  let s := s.push s.pc
  let s := s.push s.fl
  let s := s.push (s.reg 0)
  let s := s.push (s.reg 1)
  let s := s.push (s.reg 2)
  let s := s.push (s.reg 3)
  let s := s.push (s.reg 4)
  let s := s.push (s.reg 5)
  let s := s.push (s.reg 6)
  s.setPc (s.memRead (vectorAddr i))

/-- `x[r] <- pop()`. -/
def State.popReg (s : State) (r : Reg) : State :=
  s.pop.2.setReg r s.pop.1

/-- `fl <- pop()`. -/
def State.popFl (s : State) : State :=
  s.pop.2.setFl s.pop.1

/-- `pc <- pop()`. -/
def State.popPc (s : State) : State :=
  s.pop.2.setPc s.pop.1

/-- The return from an interrupt (R151, R175): R6 first, down to R0, then `fl`, then `pc`; interrupts enabled. -/
def State.interruptReturn (s : State) : State :=
  let s := s.popReg 6
  let s := s.popReg 5
  let s := s.popReg 4
  let s := s.popReg 3
  let s := s.popReg 2
  let s := s.popReg 1
  let s := s.popReg 0
  let s := s.popFl
  let s := s.popPc
  s.setIe true

/-! ### The phases of a cycle -/

/-- `irq0_req` in this cycle: any boolean, and false when the machine has no such input (R22; log 2). -/
def State.irq0Req (s : State) : Bool := s.cfg.hasIrq0 && s.irq0.headD (Config.irq0Input s.inputCount)

/-- The cycle's input is used up. -/
def State.dropInput (s : State) : State := { s with irq0 := s.irq0.tail, inputCount := s.inputCount + 1 }

/-- Phase A: the request latch (R71). Without a request the value written is the one IS has. -/
def State.latchRequest (s : State) : State :=
  s.dropInput.setReg regIS (s.reg regIS ||| if s.irq0Req then 0x01#8 else 0x00#8)

/-- The least set bit of `IM & IS` (R169, R172). -/
def lowestPending (masked : Byte) : Option (Fin 8) :=
  (List.finRange 8).find? fun i => masked.getLsbD i.val

/-- The interrupt phase B would take in this state, if any (R72, R169). -/
def State.takenInterrupt (s : State) : Option (Fin 8) :=
  if s.ie then lowestPending (s.reg regIM &&& s.reg regIS) else none

/-- Phase B: the interrupt check, with at most one entry (R72, R169). -/
def State.interruptCheck (s : State) : State :=
  match s.takenInterrupt with
  | some i => s.interruptEntry i
  | none => s

/-- Phases A and B (R70). -/
def State.beginCycle (s : State) : State := s.latchRequest.interruptCheck

/-- Phases C to F: the instruction at `pc` (R73 to R76). The operand addresses wrap (R35). -/
def State.fetchDecode (s : State) : Except Reject Instr :=
  decodeInstr s.cfg (s.memRead s.pc) (s.memRead (s.pc + 1#8)) (s.memRead (s.pc + 2#8))

/-- Phase H, the dispatcher's advance, driven by the opcode byte alone (R78). It is applied to the state the handler
leaves; a handler that halts the core does not call it. -/
def State.advance (s : State) (ir : Byte) : State :=
  if setsPc ir then s else s.setPc (s.pc + BitVec.ofNat 8 (nops ir + 1))

/-! ### Reset and load: the host's moves (R46, R190, R192) -/

/-- Memory that holds the image from an address on and zeros elsewhere (R192). -/
def Memory.ofImage : Nat → List Byte → Memory
  | _, [] => []
  | a, v :: image => if v = 0#8 then Memory.ofImage (a + 1) image else (a, v) :: Memory.ofImage (a + 1) image

/-- Every piece of state at its reset value (R23), for any parameters and image; the inputs to come are free. -/
def State.resetState (c : Config) (image : List Byte) : State where
  x := #v[c.gprReset, c.gprReset, c.gprReset, c.gprReset, c.gprReset, c.gprReset, c.gprReset, spReset]
  pc := 0#8
  fl := c.flReset
  ie := c.ieReset
  run := .running
  mem := Memory.ofImage 0 image
  out := []
  diag := none
  irq0 := []
  inputCount := 0
  cfg := c

/-- Reset with an image placed at address 0. An image that does not fit is refused, not truncated (R192, D18), and so is
an `OPC_ADDI` that R5 does not allow. -/
def resetWith (c : Config) (image : List Byte) : Result :=
  if !c.wellFormed then .refused .illegalConfig
  else if !imageWellFormed image then .refused .imageTooLong
  else .next (State.resetState c image)

/-- The inputs still to come are those of `s`. -/
def State.withInputsOf (t s : State) : State := { t with irq0 := s.irq0, inputCount := s.inputCount }

/-- The reset event in any state, `Halted` included (R190): the machine keeps its parameters and the environment its
coming inputs. -/
def State.resetEvent (s : State) (image : List Byte) : Result :=
  match resetWith s.cfg image with
  | .next t => .next (t.withInputsOf s)
  | .fault r => .fault r
  | .refused r => .refused r

/-! ### Placing one instruction for the next step -/

/-- The bytes of an opcode-table word stored at `pc`, `pc + 1` and `pc + 2`. -/
def State.storeWord (s : State) (v : Nat) : State :=
  let s := s.memWrite s.pc (wordByte v 0)
  let s := s.memWrite (s.pc + 1#8) (wordByte v 1)
  s.memWrite (s.pc + 2#8) (wordByte v 2)

/-- A running core. -/
def State.restart (s : State) : State := { s with run := .running }

/-- What lets the very next step run the instruction at `pc`: the core is running, and where phase B would enter an
interrupt instead, interrupts are off (log 12). -/
def State.readyToFetch (s : State) : State :=
  match s.restart.latchRequest.takenInterrupt with
  | some _ => s.restart.setIe false
  | none => s.restart

/-- The body of `withFetchWord`. -/
def State.placeWord (s : State) (nbits w : Nat) : State := s.readyToFetch.storeWord (w % 2 ^ nbits)

end Sys2Proof.Machine
end

