-- ==== Sys2Proof/Machine/Flags.lean ====
section
/-! DEFINITION. The flags register (10_state.md R15): its bits, and the one flag computation of the machine, CMP's
(41_alu.md R113). -/

namespace Sys2Proof.Machine

/-- E, bit 0 (R15). -/
def flagE (fl : Byte) : Bool := fl.getLsbD 0

/-- G, bit 1 (R15). No instruction reads it. -/
def flagG (fl : Byte) : Bool := fl.getLsbD 1

/-- L, bit 2 (R15). No instruction reads it. -/
def flagL (fl : Byte) : Bool := fl.getLsbD 2

/-- `1 if p else 0`, as a byte. -/
def flagBit (p : Bool) : Byte := if p then 1#8 else 0#8

/-- `(fl & 0xF8) | (L << 2) | (G << 1) | E` with unsigned comparisons of `p = x[a]` and `q = x[b]` (R113). Bits 7:3 keep
their value (D16). -/
def cmpFlags (fl p q : Byte) : Byte :=
  let e := flagBit (p.toNat = q.toNat)
  let g := flagBit (p.toNat > q.toNat)
  let l := flagBit (p.toNat < q.toNat)
  (fl &&& 0xF8#8) ||| (l <<< 2) ||| (g <<< 1) ||| e

end Sys2Proof.Machine
end

