-- ==== Sys2Proof/Machine/Operands.lean ====
section
/-! DEFINITION. The operand forms of the whole instruction set (44_data_output_system.md R140): register direct,
8-bit immediate, register indirect for a store, register as a branch target, and the stack. -/

namespace Sys2Proof.Machine

/-- A register operand read as an unsigned value (R6, R52). -/
abbrev State.regVal (s : State) (r : Reg) : Nat := (s.reg r).toNat

/-- The immediate of LDI and ADDI: the byte itself, unsigned, not extended (R54). -/
abbrev immVal (imm : Byte) : Nat := imm.toNat

/-- The effective address of ST: `x[a]` with nothing added (R140, R143). -/
def State.storeAddr (s : State) (a : Reg) : Addr := s.reg a

/-- A branch target: the full value of a register (R126). -/
def State.branchTarget (s : State) (a : Reg) : Addr := s.reg a

/-- The address a push stores at: SP after the decrement (R130). -/
def State.pushAddr (s : State) : Addr := s.reg regSP - 1#8

/-- The address after a two-byte instruction: CALL's return address, and where a conditional jump that is not taken goes
on (R122 to R124). -/
def State.pastOperand (s : State) : Addr := s.pc + 2#8

end Sys2Proof.Machine
end

