-- ==== Sys2Proof/Machine/Alu.lean ====
section
/-! DEFINITION. The 13 ALU instructions (41_alu.md): an operation on unbounded integers, `trunc8` of its result (R100),
then the dispatcher's advance (R78). -/

namespace Sys2Proof.Machine

/-! ### The ALU operations (R100, R114) -/

/-- R101, R102, R109. -/
def aluAdd (p q : Nat) : Byte := trunc8 (p + q)

/-- R110. -/
def aluDec (p : Nat) : Byte := trunc8 ((p : Int) - 1)

/-- R111. -/
def aluMul (p q : Nat) : Byte := trunc8 (p * q)

/-- R112, for a divisor that is not 0. -/
def aluMod (p q : Nat) : Byte := trunc8 (p % q : Nat)

/-- R103. -/
def aluAnd (p q : Byte) : Byte := p &&& q

/-- R104. -/
def aluOr (p q : Byte) : Byte := p ||| q

/-- R105, by the formula the rule gives. -/
def aluXor (p q : Byte) : Byte := ~~~(p &&& q) &&& (p ||| q)

/-- R106, by its second form `255 - x[a]`; that this inverts every bit is `aluNot_eq`. -/
def aluNot (p : Nat) : Byte := trunc8 (255 - (p : Int))

/-- R107: the amount is the whole value of `x[b]`. -/
def aluShl (p q : Nat) : Byte := trunc8 (p * 2 ^ q : Nat)

/-- R108: logical, the amount is the whole value of `x[b]`. -/
def aluShr (p q : Nat) : Byte := trunc8 (p / 2 ^ q : Nat)

/-! ### The instructions -/

/-- ADD (R101). -/
def execAdd (a b : Reg) (s : State) : Result :=
  .next ((s.setReg a (aluAdd (s.regVal a) (s.regVal b))).advance (opcode s.cfg (.add a b)))

/-- ADDI (R102). -/
def execAddi (a : Reg) (imm : Byte) (s : State) : Result :=
  .next ((s.setReg a (aluAdd (s.regVal a) (immVal imm))).advance (opcode s.cfg (.addi a imm)))

/-- AND (R103). -/
def execAnd (a b : Reg) (s : State) : Result :=
  .next ((s.setReg a (aluAnd (s.reg a) (s.reg b))).advance (opcode s.cfg (.and a b)))

/-- OR (R104). -/
def execOr (a b : Reg) (s : State) : Result :=
  .next ((s.setReg a (aluOr (s.reg a) (s.reg b))).advance (opcode s.cfg (.or a b)))

/-- XOR (R105). -/
def execXor (a b : Reg) (s : State) : Result :=
  .next ((s.setReg a (aluXor (s.reg a) (s.reg b))).advance (opcode s.cfg (.xor a b)))

/-- NOT (R106). -/
def execNot (a : Reg) (s : State) : Result :=
  .next ((s.setReg a (aluNot (s.regVal a))).advance (opcode s.cfg (.not a)))

/-- SHL (R107). -/
def execShl (a b : Reg) (s : State) : Result :=
  .next ((s.setReg a (aluShl (s.regVal a) (s.regVal b))).advance (opcode s.cfg (.shl a b)))

/-- SHR (R108). -/
def execShr (a b : Reg) (s : State) : Result :=
  .next ((s.setReg a (aluShr (s.regVal a) (s.regVal b))).advance (opcode s.cfg (.shr a b)))

/-- INC (R109). -/
def execInc (a : Reg) (s : State) : Result :=
  .next ((s.setReg a (aluAdd (s.regVal a) 1)).advance (opcode s.cfg (.inc a)))

/-- DEC (R110). -/
def execDec (a : Reg) (s : State) : Result :=
  .next ((s.setReg a (aluDec (s.regVal a))).advance (opcode s.cfg (.dec a)))

/-- MUL (R111). -/
def execMul (a b : Reg) (s : State) : Result :=
  .next ((s.setReg a (aluMul (s.regVal a) (s.regVal b))).advance (opcode s.cfg (.mul a b)))

/-- MOD (R112): the divisor is tested before anything is written. -/
def execMod (a b : Reg) (s : State) : Result :=
  if s.regVal b = 0 then .next (s.fatal .divisionByZero)
  else .next ((s.setReg a (aluMod (s.regVal a) (s.regVal b))).advance (opcode s.cfg (.mod a b)))

/-- CMP (R113). -/
def execCmp (a b : Reg) (s : State) : Result :=
  .next ((s.setFl (cmpFlags s.fl (s.reg a) (s.reg b))).advance (opcode s.cfg (.cmp a b)))

end Sys2Proof.Machine
end

