-- ==== Sys2Proof/Machine/Control.lean ====
section
/-! DEFINITION. The control-flow instructions (42_control_flow.md). Bit 4 of each opcode is 1, so the dispatcher's advance
leaves `pc` as the handler left it (R120, R78). -/

namespace Sys2Proof.Machine

/-- JMP (R121). -/
def execJmp (a : Reg) (s : State) : Result :=
  .next ((s.setPc (s.branchTarget a)).advance (opcode s.cfg (.jmp a)))

/-- JEQ (R122). -/
def execJeq (a : Reg) (s : State) : Result :=
  .next ((s.setPc (if flagE s.fl then s.branchTarget a else s.pastOperand)).advance (opcode s.cfg (.jeq a)))

/-- JNE (R123). -/
def execJne (a : Reg) (s : State) : Result :=
  .next ((s.setPc (if flagE s.fl then s.pastOperand else s.branchTarget a)).advance (opcode s.cfg (.jne a)))

/-- CALL (R124): the target is read after the push, so `CALL R7` jumps to the decremented SP (D17). -/
def execCall (a : Reg) (s : State) : Result :=
  let s' := s.push s.pastOperand
  .next ((s'.setPc (s'.branchTarget a)).advance (opcode s.cfg (.call a)))

/-- RET (R125): SP moves only under `RET_POPS` (D6). -/
def execRet (s : State) : Result :=
  let s' := s.setPc s.peek
  let s' := if s.cfg.retPops then s'.setReg regSP (s'.reg regSP + 1#8) else s'
  .next (s'.advance (opcode s.cfg .ret))

end Sys2Proof.Machine
end

