-- ==== Sys2Proof/Machine/Data.lean ====
section
/-! DEFINITION. Data movement, output and system instructions (44_data_output_system.md). -/

namespace Sys2Proof.Machine

/-- LD (R141): a register copy; it does not access memory. -/
def execLd (a b : Reg) (s : State) : Result :=
  .next ((s.setReg a (s.reg b)).advance (opcode s.cfg (.ld a b)))

/-- LDI (R142). -/
def execLdi (a : Reg) (imm : Byte) (s : State) : Result :=
  .next ((s.setReg a imm).advance (opcode s.cfg (.ldi a imm)))

/-- ST (R143). -/
def execSt (a b : Reg) (s : State) : Result :=
  .next ((s.memWrite (s.storeAddr a) (s.reg b)).advance (opcode s.cfg (.st a b)))

/-- PRN (R144). -/
def execPrn (a : Reg) (s : State) : Result :=
  .next ((s.emit (.prn (s.reg a))).advance (opcode s.cfg (.prn a)))

/-- PRA (R145). -/
def execPra (a : Reg) (s : State) : Result :=
  .next ((s.emit (.pra (s.reg a))).advance (opcode s.cfg (.pra a)))

/-- NOP (R146): nothing but the dispatcher's advance. -/
def execNop (s : State) : Result := .next (s.advance (opcode s.cfg .nop))

/-- HLT (R147): the dispatcher's advance is not performed (D12). -/
def execHlt (s : State) : Result := .next s.halt

end Sys2Proof.Machine
end

