-- ==== Sys2Proof/Machine/Interrupt.lean ====
section
/-! DEFINITION. INT and IRET (45_interrupt_instructions.md). Bit 4 of both opcodes is 1. -/

namespace Sys2Proof.Machine

/-- INT (R150): request interrupt `x[a]`; a number above 7 requests nothing (D8). `pc` stays at the INT under
`INT_PC_POLICY = hold` (D5). -/
def execInt (a : Reg) (s : State) : Result :=
  let s' := s.requestInterrupt (s.regVal a)
  match s.cfg.intPcPolicy with
  | .hold => .next (s'.advance (opcode s.cfg (.int a)))
  | .advance2 => .next ((s'.setPc s.pastOperand).advance (opcode s.cfg (.int a)))

/-- IRET (R151). -/
def execIret (s : State) : Result := .next (s.interruptReturn.advance (opcode s.cfg .iret))

end Sys2Proof.Machine
end

