-- ==== Sys2Proof/Machine/Stack.lean ====
section
/-! DEFINITION. PUSH and POP (43_stack.md R133, R134). -/

namespace Sys2Proof.Machine

/-- PUSH (R133): `x[a]` is read after the decrement, so `PUSH R7` stores the decremented SP (D17). -/
def execPush (a : Reg) (s : State) : Result :=
  let s' := s.setReg regSP s.pushAddr
  .next ((s'.memWrite (s'.reg regSP) (s'.reg a)).advance (opcode s.cfg (.push a)))

/-- POP (R134): the underflow test comes first; the increment reads the SP the load left, so `POP R7` ends with the
loaded value plus 1 (D17). -/
def execPop (a : Reg) (s : State) : Result :=
  if stackEmpty.toNat < s.regVal regSP then .next (s.fatal .stackUnderflow)
  else
    let s' := s.setReg a (s.memRead (s.reg regSP))
    let s' := s'.setReg regSP (s'.reg regSP + 1#8)
    .next (s'.advance (opcode s.cfg (.pop a)))

end Sys2Proof.Machine
end

