-- ==== Sys2Proof/Machine/Step.lean ====
section
/-! DEFINITION. One cycle of the core (40_fetch_decode_cycle.md R70), and the placing of one instruction for the next
cycle. -/

namespace Sys2Proof.Machine

/-- One cycle. A halted core performs none and keeps its state (R79; log 4). A running core latches the request and
checks for an interrupt (phases A and B), then fetches, decodes and executes one instruction (phases C to H); bytes
that are no instruction are a fatal error (R75, R76), after an interrupt entry of the same cycle, which is not undone
(R161). -/
def step (s : State) : Host.Outcome State Fault Refusal :=
  match s.run with
  | .halted _ => .next s
  | .running =>
    let s' := s.beginCycle
    match s'.fetchDecode with
    | .ok i => exec i s'
    | .error r => .next (s'.fatal (.decode r))

/-- `s` with the opcode-table word `w` placed where the next step fetches its instruction (log 12). -/
def State.withFetchWord (s : State) (nbits w : Nat) : State := s.placeWord nbits w

end Sys2Proof.Machine
end

