-- ==== Sys2Proof/Machine/Output.lean ====
section
/-! DEFINITION. What the host observes (10_state.md R20, 40_fetch_decode_cycle.md R82): the output rendered as text and
the exit code. -/

namespace Sys2Proof.Machine

/-- The text of one event: for PRN the decimal digits and a newline, for PRA the character with that code point (R20,
R144, R145). The bytes a host writes for code points 128 to 255 are not modelled (D20; log 15). -/
def OutEvent.render : OutEvent → List Char
  | .prn v => Nat.toDigits 10 v.toNat ++ ['\n']
  | .pra v => [Char.ofNat v.toNat]

/-- The output stream as text. -/
def State.outText (s : State) : List Char := s.out.flatMap OutEvent.render

/-- The result of a run, once the core has halted: the text and the exit code (R82). -/
def State.observed (s : State) : Option (List Char × Nat) :=
  match s.run with
  | .running => none
  | .halted c => some (s.outText, c.toNat)

end Sys2Proof.Machine
end

