-- ==== Sys2Proof/Safety.lean ====
section
/-! DEFINITION. The terms claims are made in: what a step may leave unchanged, what a fatal halt is, and the invariant of
the machine. -/

namespace Sys2Proof.Machine

/-! ### Frames -/

/-- Every general register outside the list is unchanged. -/
def KeepsRegsBut (rs : List Reg) (s t : State) : Prop := ∀ r, r ∉ rs → t.reg r = s.reg r

/-- Every byte of memory is unchanged. -/
def KeepsMem (s t : State) : Prop := ∀ a : Addr, t.memRead a = s.memRead a

/-- Every byte of memory but one is unchanged. -/
def KeepsMemBut (w : Addr) (s t : State) : Prop := ∀ a : Addr, a ≠ w → t.memRead a = s.memRead a

/-- The run state, the diagnostic record, the coming inputs and the parameters are unchanged. -/
def KeepsRun (s t : State) : Prop := t.run = s.run ∧ t.diag = s.diag ∧ t.irq0 = s.irq0 ∧
  t.inputCount = s.inputCount ∧ t.cfg = s.cfg

/-- All state but the general registers and `pc` is unchanged. -/
def KeepsAllButRegsPc (s t : State) : Prop :=
  t.fl = s.fl ∧ t.ie = s.ie ∧ KeepsMem s t ∧ t.out = s.out ∧ KeepsRun s t

/-- The instruction completes: it writes a value with the property `P` to register `a`, moves `pc` on by its length and
leaves everything else unchanged. -/
def WritesReg (i : Instr) (s : State) (a : Reg) (len : Nat) (P : Byte → Prop) : Prop :=
  ∃ t, exec i s = .next t ∧ P (t.reg a) ∧ KeepsRegsBut [a] s t ∧ t.pc = s.pc + BitVec.ofNat 8 len ∧
    KeepsAllButRegsPc s t

/-- The instruction completes: `pc` becomes `target` and everything else is unchanged. -/
def OnlyJumps (i : Instr) (s : State) (target : Addr) : Prop :=
  ∃ t, exec i s = .next t ∧ t.pc = target ∧ KeepsRegsBut [] s t ∧ KeepsAllButRegsPc s t

/-! ### Who writes the registers (R24) -/

/-- The registers an instruction may write: its operand `x[d]`, SP, IS and `x[0]` to `x[5]` as the rows of R24 list them. -/
def writtenRegs (c : Config) : Instr → List Reg
  | .nop => []
  | .hlt => []
  | .ret => if c.retPops then [regSP] else []
  | .iret => [0, 1, 2, 3, 4, 5, regIS, regSP]
  | .push _ => [regSP]
  | .pop a => [a, regSP]
  | .prn _ => []
  | .pra _ => []
  | .call _ => [regSP]
  | .int _ => [regIS]
  | .jmp _ => []
  | .jeq _ => []
  | .jne _ => []
  | .inc a => [a]
  | .dec a => [a]
  | .not a => [a]
  | .ldi a _ => [a]
  | .ld a _ => [a]
  | .st _ _ => []
  | .add a _ => [a]
  | .mul a _ => [a]
  | .mod a _ => [a]
  | .addi a _ => [a]
  | .cmp _ _ => []
  | .and a _ => [a]
  | .or a _ => [a]
  | .xor a _ => [a]
  | .shl a _ => [a]
  | .shr a _ => [a]

/-! ### Fatal errors (R161) -/

/-- `t` is `s` after `raise Fatal`: halted with the error's code, the error recorded, nothing else changed. -/
def HaltedBy (f : Fatal) (s t : State) : Prop :=
  t.run = .halted f.code ∧ t.diag = some f ∧ KeepsRegsBut [] s t ∧ t.pc = s.pc ∧ t.fl = s.fl ∧ t.ie = s.ie ∧
    KeepsMem s t ∧ t.out = s.out ∧ t.irq0 = s.irq0 ∧ t.inputCount = s.inputCount ∧ t.cfg = s.cfg

/-! ### The invariant -/

/-- The condition under which a fatal error is raised holds of the state, whose `pc` is still at the failing instruction
(R161 to R165). -/
def FatalCause (s : State) : Fatal → Prop
  | .decode r => s.fetchDecode = .error r
  | .stackUnderflow => (∃ a, s.fetchDecode = .ok (.pop a)) ∧ 0xF3 < (s.reg regSP).toNat
  | .divisionByZero => ∃ a b, s.fetchDecode = .ok (.mod a b) ∧ (s.reg b).toNat = 0

/-- The run state and the diagnostic record agree, and a halted core still shows why it halted: the instruction at `pc`
is HLT, or the cause of the recorded error (R17, R21, R147, R161). -/
def HaltExplained (s : State) : Prop :=
  match s.run, s.diag with
  | .running, d => d = none
  | .halted c, none => c = .normalHalt ∧ s.fetchDecode = .ok .hlt
  | .halted c, some f => c = f.code ∧ FatalCause s f

/-- Memory is in canonical form, the parameters are legal, and a halt is explained. -/
def State.Inv (s : State) : Prop := s.mem.wf = true ∧ s.cfg.wellFormed = true ∧ HaltExplained s

end Sys2Proof.Machine
end

