-- ==== Sys2Proof/Certificates/Slice0/Obligations.lean ====
section
/-! DEFINITION. The statements for the provers, each about the whole machine or about every state and operand. Each
docstring names the rule or section of spec/ it formalises. The opcode values in the encoding clauses are those the
instruction rules give; R55 supplies them from general knowledge and not from the source (log 10). -/

open Sys2Proof Sys2Proof.Machine

/-! ### ALU instructions (41_alu.md) -/

/-- R101 (ADD), R109 (INC), R110 (DEC), R111 (MUL): the result modulo 256, the frame, the advance and the encoding. -/
def Obligations.ArithmeticWrapsModulo256 : Prop :=
  ∀ (s : State) (a b : Reg),
    WritesReg (.add a b) s a 3 (fun v => v.toNat = ((s.reg a).toNat + (s.reg b).toNat) % 256) ∧
    WritesReg (.inc a) s a 2 (fun v => v.toNat = ((s.reg a).toNat + 1) % 256) ∧
    WritesReg (.dec a) s a 2 (fun v => (v.toNat : Int) = (((s.reg a).toNat : Int) - 1) % 256) ∧
    WritesReg (.mul a b) s a 3 (fun v => v.toNat = (s.reg a).toNat * (s.reg b).toNat % 256) ∧
    encode s.cfg (.add a b) = [0xA0#8, regByte a, regByte b] ∧ encode s.cfg (.inc a) = [0x65#8, regByte a] ∧
    encode s.cfg (.dec a) = [0x66#8, regByte a] ∧ encode s.cfg (.mul a b) = [0xA2#8, regByte a, regByte b]

/-- 41_alu.md section 2 (ADDI). Its opcode is the parameter `OPC_ADDI`, whose value and legality are the spec's decision
D4; hence the premise. -/
def Obligations.AddiAddsImmediateModulo256 : Prop :=
  ∀ (s : State) (a : Reg) (imm : Byte), s.cfg.wellFormed = true →
    WritesReg (.addi a imm) s a 3 (fun v => v.toNat = ((s.reg a).toNat + imm.toNat) % 256) ∧
    encode s.cfg (.addi a imm) = [s.cfg.opcAddi, regByte a, imm] ∧ Config.default.opcAddi = 0xA5#8

/-- R103 (AND), R104 (OR), R105 (XOR, by its formula and bit for bit), R106 (NOT). -/
def Obligations.LogicIsBitwise : Prop :=
  ∀ (s : State) (a b : Reg),
    WritesReg (.and a b) s a 3 (fun v => ∀ k, v.getLsbD k = ((s.reg a).getLsbD k && (s.reg b).getLsbD k)) ∧
    WritesReg (.or a b) s a 3 (fun v => ∀ k, v.getLsbD k = ((s.reg a).getLsbD k || (s.reg b).getLsbD k)) ∧
    WritesReg (.xor a b) s a 3 (fun v => v = ~~~(s.reg a &&& s.reg b) &&& (s.reg a ||| s.reg b) ∧
      ∀ k, v.getLsbD k = ((s.reg a).getLsbD k != (s.reg b).getLsbD k)) ∧
    WritesReg (.not a) s a 2 (fun v => v.toNat = 255 - (s.reg a).toNat ∧
      ∀ k, k < 8 → v.getLsbD k = !(s.reg a).getLsbD k) ∧
    encode s.cfg (.and a b) = [0xA8#8, regByte a, regByte b] ∧ encode s.cfg (.or a b) = [0xAA#8, regByte a, regByte b] ∧
    encode s.cfg (.xor a b) = [0xAB#8, regByte a, regByte b] ∧ encode s.cfg (.not a) = [0x69#8, regByte a]

/-- 41_alu.md section 4 (SHL, SHR): the amount is the whole value of `x[b]`, so 8 or more gives 0; the unbounded
intermediate this rests on is the spec's decision D28. -/
def Obligations.ShiftsUseTheWholeAmount : Prop :=
  ∀ (s : State) (a b : Reg),
    WritesReg (.shl a b) s a 3 (fun v => v.toNat = (s.reg a).toNat * 2 ^ (s.reg b).toNat % 256 ∧
      (8 ≤ (s.reg b).toNat → v = 0#8)) ∧
    WritesReg (.shr a b) s a 3 (fun v => v.toNat = (s.reg a).toNat / 2 ^ (s.reg b).toNat ∧
      (8 ≤ (s.reg b).toNat → v = 0#8)) ∧
    encode s.cfg (.shl a b) = [0xAC#8, regByte a, regByte b] ∧ encode s.cfg (.shr a b) = [0xAD#8, regByte a, regByte b]

/-- R112 (MOD): the remainder, or the fatal error 4 with no register changed. -/
def Obligations.ModRemainderOrDivisionByZero : Prop :=
  ∀ (s : State) (a b : Reg),
    ((s.reg b).toNat ≠ 0 →
      WritesReg (.mod a b) s a 3 (fun v => v.toNat = (s.reg a).toNat % (s.reg b).toNat ∧ v.toNat < (s.reg b).toNat)) ∧
    ((s.reg b).toNat = 0 → ∃ t, exec (.mod a b) s = .next t ∧ HaltedBy .divisionByZero s t) ∧
    Fatal.divisionByZero.code.toNat = 4 ∧ encode s.cfg (.mod a b) = [0xA4#8, regByte a, regByte b]

/-- 41_alu.md section 5 (CMP). That bits 7:3 of `fl` keep their value is the spec's decision D16. -/
def Obligations.CmpSetsExactlyOneFlag : Prop :=
  ∀ (s : State) (a b : Reg), ∃ t, exec (.cmp a b) s = .next t ∧
    (t.fl.getLsbD 0 = true ↔ (s.reg a).toNat = (s.reg b).toNat) ∧
    (t.fl.getLsbD 1 = true ↔ (s.reg b).toNat < (s.reg a).toNat) ∧
    (t.fl.getLsbD 2 = true ↔ (s.reg a).toNat < (s.reg b).toNat) ∧
    (t.fl.getLsbD 0).toNat + (t.fl.getLsbD 1).toNat + (t.fl.getLsbD 2).toNat = 1 ∧
    (∀ k, 3 ≤ k → t.fl.getLsbD k = s.fl.getLsbD k) ∧
    KeepsRegsBut [] s t ∧ t.pc = s.pc + 3#8 ∧ t.ie = s.ie ∧ KeepsMem s t ∧ t.out = s.out ∧ KeepsRun s t ∧
    encode s.cfg (.cmp a b) = [0xA7#8, regByte a, regByte b]

/-! ### Control flow (42_control_flow.md) -/

/-- R121 (JMP), R122 (JEQ), R123 (JNE): the new `pc` on every path; nothing else changes. -/
def Obligations.JumpsSetPcAndNothingElse : Prop :=
  ∀ (s : State) (a : Reg),
    OnlyJumps (.jmp a) s (s.reg a) ∧
    OnlyJumps (.jeq a) s (if s.fl.getLsbD 0 = true then s.reg a else s.pc + 2#8) ∧
    OnlyJumps (.jne a) s (if s.fl.getLsbD 0 = false then s.reg a else s.pc + 2#8) ∧
    encode s.cfg (.jmp a) = [0x54#8, regByte a] ∧ encode s.cfg (.jeq a) = [0x55#8, regByte a] ∧
    encode s.cfg (.jne a) = [0x56#8, regByte a]

/-- 42_control_flow.md section 3 (CALL). That `CALL R7` jumps to the decremented SP is the spec's decision D17. The one
byte stored is at `State.pushAddr`. -/
def Obligations.CallPushesReturnAddressAndJumps : Prop :=
  ∀ (s : State) (a : Reg), s.mem.wf = true → ∃ t, exec (.call a) s = .next t ∧
    t.reg regSP = s.reg regSP - 1#8 ∧ KeepsRegsBut [regSP] s t ∧
    t.memRead s.pushAddr = s.pc + 2#8 ∧ KeepsMemBut s.pushAddr s t ∧
    t.pc = (if a = regSP then s.reg regSP - 1#8 else s.reg a) ∧
    t.fl = s.fl ∧ t.ie = s.ie ∧ t.out = s.out ∧ KeepsRun s t ∧ encode s.cfg (.call a) = [0x50#8, regByte a]

/-- 42_control_flow.md section 3 (RET): the top of the stack goes to `pc`, and SP moves only under the parameter
`RET_POPS`, the spec's decision D6. No underflow test, decision D21. -/
def Obligations.RetPeeksUnlessRetPops : Prop :=
  ∀ s : State, ∃ t, exec .ret s = .next t ∧ t.pc = s.memRead (s.reg regSP) ∧
    t.reg regSP = (if s.cfg.retPops then s.reg regSP + 1#8 else s.reg regSP) ∧
    KeepsRegsBut [regSP] s t ∧ KeepsAllButRegsPc s t ∧ encode s.cfg .ret = [0x11#8]

/-- 70_reset_and_hazards.md section 3: a CALL and then a RET come back past the CALL, with SP one lower than before unless
`RET_POPS` (decision D6). -/
def Obligations.RetAfterCallReturnsPastIt : Prop :=
  ∀ (s t : State) (a : Reg), s.mem.wf = true → exec (.call a) s = .next t →
    ∃ u, exec .ret t = .next u ∧ u.pc = s.pc + 2#8 ∧
      u.reg regSP = (if s.cfg.retPops then s.reg regSP else s.reg regSP - 1#8) ∧ KeepsRegsBut [regSP] s u

/-! ### Stack (43_stack.md) -/

/-- 43_stack.md section 2 (PUSH). That `PUSH R7` stores the decremented SP is the spec's decision D17. The one byte stored
is at `State.pushAddr`. -/
def Obligations.PushStoresBelowSp : Prop :=
  ∀ (s : State) (a : Reg), s.mem.wf = true → ∃ t, exec (.push a) s = .next t ∧
    t.reg regSP = s.reg regSP - 1#8 ∧ KeepsRegsBut [regSP] s t ∧
    t.memRead s.pushAddr = (if a = regSP then s.reg regSP - 1#8 else s.reg a) ∧ KeepsMemBut s.pushAddr s t ∧
    t.pc = s.pc + 2#8 ∧ t.fl = s.fl ∧ t.ie = s.ie ∧ t.out = s.out ∧ KeepsRun s t ∧
    encode s.cfg (.push a) = [0x45#8, regByte a]

/-- 43_stack.md section 2 (POP): the underflow test first, then the load and the increment. That `POP R7` ends with the
loaded value plus 1 is the spec's decision D17. -/
def Obligations.PopLoadsOrUnderflows : Prop :=
  ∀ (s : State) (a : Reg),
    ((s.reg regSP).toNat ≤ 0xF3 → ∃ t, exec (.pop a) s = .next t ∧
      (a ≠ regSP → t.reg a = s.memRead (s.reg regSP) ∧ t.reg regSP = s.reg regSP + 1#8) ∧
      (a = regSP → t.reg regSP = s.memRead (s.reg regSP) + 1#8) ∧
      KeepsRegsBut [a, regSP] s t ∧ t.pc = s.pc + 2#8 ∧ KeepsAllButRegsPc s t) ∧
    (0xF3 < (s.reg regSP).toNat → ∃ t, exec (.pop a) s = .next t ∧ HaltedBy .stackUnderflow s t) ∧
    Fatal.stackUnderflow.code.toNat = 3 ∧ encode s.cfg (.pop a) = [0x46#8, regByte a]

/-- 43_stack.md section 2, the stack discipline property; its side conditions on SP are the spec's own derivation. -/
def Obligations.PushThenPopRestores : Prop :=
  ∀ (s : State) (a : Reg), s.mem.wf = true → 0x01 ≤ (s.reg regSP).toNat → (s.reg regSP).toNat ≤ 0xF4 →
    ∃ t u, exec (.push a) s = .next t ∧ exec (.pop a) t = .next u ∧ KeepsRegsBut [] s u ∧
      u.memRead s.pushAddr = t.memRead s.pushAddr ∧ KeepsMemBut s.pushAddr s u ∧ u.pc = s.pc + 4#8

/-! ### Data movement, output and system (44_data_output_system.md) -/

/-- R141 (LD, a register copy) and R142 (LDI, any byte): every register can be the destination, SP, IM and IS included. -/
def Obligations.LdCopiesAndLdiLoads : Prop :=
  ∀ (s : State) (a b : Reg) (imm : Byte),
    WritesReg (.ld a b) s a 3 (fun v => v = s.reg b) ∧ WritesReg (.ldi a imm) s a 3 (fun v => v = imm) ∧
    encode s.cfg (.ld a b) = [0x83#8, regByte a, regByte b] ∧ encode s.cfg (.ldi a imm) = [0x82#8, regByte a, imm]

/-- R143 (ST): one byte at `State.storeAddr`, every address writable, no register changed. -/
def Obligations.StStoresOneByte : Prop :=
  ∀ (s : State) (a b : Reg), s.mem.wf = true → ∃ t, exec (.st a b) s = .next t ∧ s.storeAddr a = s.reg a ∧
    t.memRead (s.storeAddr a) = s.reg b ∧ KeepsMemBut (s.storeAddr a) s t ∧ t.pc = s.pc + 3#8 ∧
    KeepsRegsBut [] s t ∧ t.fl = s.fl ∧ t.ie = s.ie ∧ t.out = s.out ∧ KeepsRun s t ∧
    encode s.cfg (.st a b) = [0x84#8, regByte a, regByte b]

/-- 44_data_output_system.md section 2 (PRN): one event, whose text is the decimal digits and a newline, the rendering of the
spec's decision D20. -/
def Obligations.PrnEmitsDecimalLine : Prop :=
  ∀ (s : State) (a : Reg), ∃ t, exec (.prn a) s = .next t ∧ t.out = s.out ++ [.prn (s.reg a)] ∧
    t.outText = s.outText ++ Nat.toDigits 10 (s.reg a).toNat ++ ['\n'] ∧ t.pc = s.pc + 2#8 ∧
    KeepsRegsBut [] s t ∧ t.fl = s.fl ∧ t.ie = s.ie ∧ KeepsMem s t ∧ KeepsRun s t ∧
    encode s.cfg (.prn a) = [0x47#8, regByte a]

/-- 44_data_output_system.md section 2 (PRA): one event, whose text is the character with that code point. How a host writes
code points above 127 as bytes is left to it by the spec's decision D20. -/
def Obligations.PraEmitsOneCharacter : Prop :=
  ∀ (s : State) (a : Reg), ∃ t, exec (.pra a) s = .next t ∧ t.out = s.out ++ [.pra (s.reg a)] ∧
    (∃ ch : Char, ch.toNat = (s.reg a).toNat ∧ t.outText = s.outText ++ [ch]) ∧ t.pc = s.pc + 2#8 ∧
    KeepsRegsBut [] s t ∧ t.fl = s.fl ∧ t.ie = s.ie ∧ KeepsMem s t ∧ KeepsRun s t ∧
    encode s.cfg (.pra a) = [0x48#8, regByte a]

/-- R146 (NOP): nothing but `pc`. -/
def Obligations.NopOnlyAdvancesPc : Prop :=
  ∀ s : State, OnlyJumps .nop s (s.pc + 1#8) ∧ encode s.cfg .nop = [0x00#8]

/-- 44_data_output_system.md section 3 (HLT): `run` becomes `Halted(0)` and nothing else changes; that `pc` stays at the HLT
is the spec's decision D12. -/
def Obligations.HltHaltsWithCodeZero : Prop :=
  ∀ s : State, ∃ t, exec .hlt s = .next t ∧ t.run = .halted .normalHalt ∧ ExitCode.normalHalt.toNat = 0 ∧
    t.pc = s.pc ∧ KeepsRegsBut [] s t ∧ t.fl = s.fl ∧ t.ie = s.ie ∧ KeepsMem s t ∧ t.out = s.out ∧ t.diag = s.diag ∧
    t.irq0 = s.irq0 ∧ t.inputCount = s.inputCount ∧ t.cfg = s.cfg ∧ encode s.cfg .hlt = [0x01#8]

/-! ### Interrupt instructions (45_interrupt_instructions.md) -/

/-- 45_interrupt_instructions.md (INT): bit `x[a]` of IS is set, a number above 7 sets none (the spec's decision D8), and
`pc` follows `INT_PC_POLICY` (decision D5). -/
def Obligations.IntRequestsOneInterrupt : Prop :=
  ∀ (s : State) (a : Reg), ∃ t, exec (.int a) s = .next t ∧
    (∀ k, k < 8 → ((t.reg regIS).getLsbD k = true ↔ (s.reg regIS).getLsbD k = true ∨ (s.reg a).toNat = k)) ∧
    KeepsRegsBut [regIS] s t ∧
    (s.cfg.intPcPolicy = .hold → t.pc = s.pc) ∧ (s.cfg.intPcPolicy = .advance2 → t.pc = s.pc + 2#8) ∧
    KeepsAllButRegsPc s t ∧ encode s.cfg (.int a) = [0x52#8, regByte a]

/-- 45_interrupt_instructions.md (IRET): nine bytes from SP up, R6 first; interrupts enabled; no underflow test (the
spec's decision D21). -/
def Obligations.IretRestoresNineBytes : Prop :=
  ∀ s : State, ∃ t, exec .iret s = .next t ∧
    t.reg 6 = s.memRead (s.reg regSP) ∧ t.reg 5 = s.memRead (s.reg regSP + 1#8) ∧
    t.reg 4 = s.memRead (s.reg regSP + 2#8) ∧ t.reg 3 = s.memRead (s.reg regSP + 3#8) ∧
    t.reg 2 = s.memRead (s.reg regSP + 4#8) ∧ t.reg 1 = s.memRead (s.reg regSP + 5#8) ∧
    t.reg 0 = s.memRead (s.reg regSP + 6#8) ∧ t.fl = s.memRead (s.reg regSP + 7#8) ∧
    t.pc = s.memRead (s.reg regSP + 8#8) ∧ t.reg regSP = s.reg regSP + 9#8 ∧ t.ie = true ∧
    KeepsMem s t ∧ t.out = s.out ∧ KeepsRun s t ∧ encode s.cfg .iret = [0x13#8]

/-! ### Interrupt entry and return (60_exceptions.md) -/

/-- 60_exceptions.md section 3: the whole effect of taking interrupt i, the frame byte by byte, the handler address read after
the pushes. That R0 is pushed first is the spec's choice between two statements of the source (90_conflicts.md C1, decision
D27). -/
def Obligations.InterruptEntrySavesAndVectors : Prop :=
  ∀ (s : State) (i : Fin 8), s.mem.wf = true →
    let t := s.interruptEntry i
    let sp := s.reg regSP
    t.ie = false ∧ t.reg regSP = sp - 9#8 ∧ KeepsRegsBut [regIS, regSP] s t ∧
    (∀ k, (t.reg regIS).getLsbD k = ((s.reg regIS).getLsbD k && k != i.val)) ∧
    t.memRead (sp - 1#8) = s.pc ∧ t.memRead (sp - 2#8) = s.fl ∧ t.memRead (sp - 3#8) = s.reg 0 ∧
    t.memRead (sp - 4#8) = s.reg 1 ∧ t.memRead (sp - 5#8) = s.reg 2 ∧ t.memRead (sp - 6#8) = s.reg 3 ∧
    t.memRead (sp - 7#8) = s.reg 4 ∧ t.memRead (sp - 8#8) = s.reg 5 ∧ t.memRead (sp - 9#8) = t.reg 6 ∧
    (∀ a : Addr, 9 < (sp - a).toNat ∨ a = sp → t.memRead a = s.memRead a) ∧
    t.pc = t.memRead (0xF8#8 + BitVec.ofNat 8 i.val) ∧ t.fl = s.fl ∧ t.out = s.out ∧ KeepsRun s t

/-- R169: with interrupts enabled the check enters the least pending interrupt, and does nothing when none is pending. -/
def Obligations.PendingCheckTakesLowest : Prop :=
  ∀ s : State, s.ie = true →
    (s.reg regIM &&& s.reg regIS = 0#8 → s.interruptCheck = s) ∧
    (∀ i : Fin 8, (s.reg regIM &&& s.reg regIS).getLsbD i.val = true →
      (∀ j : Fin 8, j < i → (s.reg regIM &&& s.reg regIS).getLsbD j.val = false) →
      s.interruptCheck = s.interruptEntry i)

/-- 40_fetch_decode_cycle.md section 1 (phases A and B) and 10_state.md section 5 (the input). That the request is latched
whatever `ie` is the spec's decision D13. That the input is the list in State where it has a value for the cycle, and a free
value after it, is the model's choice, log 2. -/
def Obligations.RequestLatchSetsBitZero : Prop :=
  ∀ s : State,
    (∀ k, k < 8 → ((s.latchRequest.reg regIS).getLsbD k = true ↔
      (s.reg regIS).getLsbD k = true ∨ (k = 0 ∧ s.cfg.hasIrq0 = true ∧
        (s.irq0.head? = some true ∨ (s.irq0 = [] ∧ Config.irq0Input s.inputCount = true))))) ∧
    KeepsRegsBut [regIS] s s.latchRequest ∧ s.latchRequest.pc = s.pc ∧ s.latchRequest.fl = s.fl ∧
    s.latchRequest.ie = s.ie ∧ s.latchRequest.run = s.run ∧ KeepsMem s s.latchRequest ∧
    s.latchRequest.out = s.out ∧ s.latchRequest.diag = s.diag ∧ s.latchRequest.irq0 = s.irq0.tail ∧
    s.latchRequest.inputCount = s.inputCount + 1 ∧ s.latchRequest.cfg = s.cfg ∧ (s.ie = false → s.beginCycle = s.latchRequest)

/-- 45_interrupt_instructions.md, the interrupt round trip in the exact form the spec derives: after an entry, an IRET that
finds SP and the nine frame bytes as entry left them restores everything but the taken bit of IS. -/
def Obligations.InterruptRoundTripRestores : Prop :=
  ∀ (s t : State) (i : Fin 8), s.mem.wf = true →
    t.reg regSP = (s.interruptEntry i).reg regSP →
    (∀ k : Nat, k < 9 → t.memRead (t.reg regSP + BitVec.ofNat 8 k) =
      (s.interruptEntry i).memRead (t.reg regSP + BitVec.ofNat 8 k)) →
    ∃ u, exec .iret t = .next u ∧ (∀ r : Reg, r ≠ regIS → u.reg r = s.reg r) ∧
      (∀ k, (u.reg regIS).getLsbD k = ((s.reg regIS).getLsbD k && k != i.val)) ∧
      u.fl = s.fl ∧ u.pc = s.pc ∧ u.ie = true ∧ KeepsMem t u ∧ u.out = t.out ∧ KeepsRun t u

/-- 60_exceptions.md section 4: a pending, enabled interrupt is entered before the instruction at `pc` is fetched, and the
first instruction of the handler runs in the same cycle (the spec's decision D19). -/
def Obligations.TakenInterruptRunsHandlerFirst : Prop :=
  ∀ (s : State) (i : Fin 8) (j : Instr), s.run = .running → s.mem.wf = true →
    s.latchRequest.takenInterrupt = some i → (s.latchRequest.interruptEntry i).fetchDecode = .ok j →
    step s = exec j (s.latchRequest.interruptEntry i) ∧
    (s.latchRequest.interruptEntry i).memRead (s.reg regSP - 1#8) = s.pc

/-- R178: INT, the pending check, interrupt entry and IRET raise no fatal error under any state. -/
def Obligations.InterruptOperationsNeverFail : Prop :=
  ∀ (s : State) (i : Fin 8) (a : Reg),
    (∃ t, exec (.int a) s = .next t ∧ t.run = s.run ∧ t.diag = s.diag) ∧
    (∃ t, exec .iret s = .next t ∧ t.run = s.run ∧ t.diag = s.diag) ∧
    (s.interruptEntry i).run = s.run ∧ (s.interruptEntry i).diag = s.diag ∧
    s.interruptCheck.run = s.run ∧ s.interruptCheck.diag = s.diag

/-- R16: interrupt entry clears `ie`, a cycle turns it on only by an IRET, and no instruction reads it. -/
def Obligations.InterruptsEnabledOnlyByIret : Prop :=
  (∀ (s : State) (i : Fin 8), (s.interruptEntry i).ie = false) ∧
  (∀ s t : State, step s = .next t → s.ie = false → t.ie = true →
    s.run = .running ∧ s.beginCycle.fetchDecode = .ok .iret) ∧
  (∀ (s t : State) (i : Instr) (b : Bool), exec i s = .next t →
    exec i (s.setIe b) = .next (if i = .iret then t else t.setIe b))

/-! ### Fatal errors (60_exceptions.md) -/

/-- 60_exceptions.md section 1 and 40_fetch_decode_cycle.md section 1 (phase E): a byte that is none of the 29 opcodes halts
the core with code 1 and is recorded, and nothing else gives code 1. That the halted core keeps `pc` at the byte and all other
state is the spec's decision D12 (log 17). -/
def Obligations.UnrecognizedOpcodeHaltsWithCodeOne : Prop :=
  ∀ s : State, s.run = .running →
    let u := s.beginCycle
    let ir := u.memRead u.pc
    (ir ∉ fixedOpcodes ++ [u.cfg.opcAddi] →
      ∃ t, step s = .next t ∧ HaltedBy (.decode (.unrecognizedOpcode ir)) u t) ∧
    (∀ t, step s = .next t → t.run = .halted .unrecognizedOpcode → ir ∉ fixedOpcodes ++ [u.cfg.opcAddi]) ∧
    ExitCode.unrecognizedOpcode.toNat = 1

/-- 40_fetch_decode_cycle.md section 1 (phase F): under `fault`, a recognized opcode with a register-number byte above 7
halts the core with code 5 (the spec's decisions D9 and D10); under `mask3` the register number is the low three bits. What is
recorded for a byte that was not read is the model's reading, log 7. -/
def Obligations.RegisterNumberCheck : Prop :=
  ∀ s : State, s.run = .running → s.cfg.wellFormed = true →
    let u := s.beginCycle
    let ir := u.memRead u.pc
    let opA := u.memRead (u.pc + 1#8)
    let opB := u.memRead (u.pc + 2#8)
    (∀ f, formatOf u.cfg ir = some f → bytesWellFormed u.cfg ir opA opB = false →
      ∃ t, step s = .next t ∧ HaltedBy (.decode (.regIdx ir opA (if nops ir = 2 then some opB else none))) u t) ∧
    (∀ f, u.cfg.regIdxPolicy = .mask3 → formatOf u.cfg ir = some f →
      ∃ i, u.fetchDecode = .ok i ∧
        decodeInstr { u.cfg with regIdxPolicy := .fault } ir (opA &&& 7#8) (if f = .f2rr then opB &&& 7#8 else opB) = .ok i) ∧
    ExitCode.regIdx.toNat = 5

/-- 60_exceptions.md section 1 (codes 3 and 4): only POP raises code 3, exactly when `x[7] > 0xF3`; only MOD raises code 4,
exactly when `x[b] = 0`. That RET and IRET test no underflow is the spec's decision D21. -/
def Obligations.OnlyPopAndModRaiseTheirErrors : Prop :=
  ∀ (i : Instr) (s t : State), s.run = .running → exec i s = .next t →
    (t.run = .halted .stackUnderflow ↔ (∃ a, i = .pop a) ∧ 0xF3 < (s.reg regSP).toNat) ∧
    (t.run = .halted .divisionByZero ↔ ∃ a b, i = .mod a b ∧ (s.reg b).toNat = 0)

/-! ### The cycle (40_fetch_decode_cycle.md) -/

/-- 40_fetch_decode_cycle.md section 1: after phases A and B, a cycle runs the instruction that the bytes at `pc` decode to.
-/
def Obligations.StepRunsTheDecodedInstruction : Prop :=
  ∀ (s : State) (i : Instr) (rest : List Byte), s.run = .running →
    let u := s.beginCycle
    decode u.cfg [u.memRead u.pc, u.memRead (u.pc + 1#8), u.memRead (u.pc + 2#8)] = .instr i rest →
    step s = exec i u

/-- 40_fetch_decode_cycle.md section 1 with 30_encoding.md sections 1 to 3: where the bytes at `pc` are the encoding of an
instruction, the cycle runs that instruction. That the bytes may lie around the top of memory is the wrap of the spec's decision
D2 (log 11). -/
def Obligations.StepRunsTheEncodedInstruction : Prop :=
  ∀ (s : State) (i : Instr), s.run = .running → s.cfg.wellFormed = true →
    let u := s.beginCycle
    (∀ k (h : k < (encode u.cfg i).length), u.memRead (u.pc + BitVec.ofNat 8 k) = (encode u.cfg i)[k]) →
    step s = exec i u

/-- 40_fetch_decode_cycle.md section 2 (a halted core performs no cycle, the spec's decision D12). That the step of a halted
core is a next state, the same one, is the model's reading, log 4. -/
def Obligations.HaltedCoreIsInert : Prop :=
  ∀ (s : State) (c : ExitCode), s.run = .halted c → step s = .next s

/-- 30_encoding.md section 5 and 60_exceptions.md section 1: a cycle has an outcome in every state. That halts and fatal errors
are next states (log 5), and that a halted core's step is one (log 4), is the model's reading; with it the model never faults
and never refuses. -/
def Obligations.StepAlwaysAnswersNext : Prop := ∀ s : State, ∃ t, step s = .next t

/-- 40_fetch_decode_cycle.md section 2 (the operand count): decoding reads exactly the announced operand bytes, and an
instruction that does not set `pc` itself and does not halt the core advances `pc` by the operand count plus 1. That a halt
leaves `pc` where it is is the spec's decision D12; that the decoder is given the bytes beyond the count and ignores them is
the model's reading, log 8. -/
def Obligations.OperandCountGivesBytesAndAdvance : Prop :=
  (∀ (c : Config) (ir a b a' b' : Byte), c.wellFormed = true → (1 ≤ operandCount ir → a = a') → (operandCount ir = 2 → b = b') →
    decodeInstr c ir a b = decodeInstr c ir a' b') ∧
  (∀ (c : Config) (ir a b : Byte) (rest : List Byte) (i : Instr), c.wellFormed = true → decodeInstr c ir a b = .ok i →
    operandCount ir = nops ir ∧ decode c (ir :: ([a, b].take (nops ir) ++ rest)) = .instr i rest) ∧
  (∀ (i : Instr) (s t : State), s.cfg.wellFormed = true → s.run = .running → exec i s = .next t → t.run = .running →
    setsPc (opcode s.cfg i) = false → t.pc = s.pc + BitVec.ofNat 8 (nops (opcode s.cfg i) + 1))

/-- 10_state.md section 7 (who writes what): what each kind of state can be changed by, over all instructions, and by phases A
and B of a cycle (request latch and interrupt entry). The registers an instruction may write are `writtenRegs`. That INT and
RET write `pc` and SP under their parameters are the spec's decisions D5 and D6; that HLT and the fatal errors leave `pc` is
decision D12. The clauses about the inputs and the parameters are the model's choice, log 2 and log 1. -/
def Obligations.OnlyTheListedWritersWrite : Prop :=
  (∀ (i : Instr) (s t : State), exec i s = .next t →
    (∀ r, t.reg r ≠ s.reg r → r ∈ writtenRegs s.cfg i) ∧
    (t.pc ≠ s.pc → i ≠ .hlt ∧ (∀ a, i = .int a → s.cfg.intPcPolicy = .advance2) ∧ t.run = s.run ∧ t.diag = s.diag) ∧
    (t.fl ≠ s.fl → i = .iret ∨ ∃ a b, i = .cmp a b) ∧
    (t.ie ≠ s.ie → i = .iret) ∧
    (t.mem ≠ s.mem → (∃ a b, i = .st a b) ∨ ∃ a, i = .push a ∨ i = .call a) ∧
    (t.out ≠ s.out → ∃ a, i = .prn a ∨ i = .pra a) ∧
    (t.run ≠ s.run → i = .hlt ∨ (∃ a, i = .pop a) ∨ ∃ a b, i = .mod a b) ∧
    (t.diag ≠ s.diag → (∃ a, i = .pop a) ∨ ∃ a b, i = .mod a b) ∧
    t.irq0 = s.irq0 ∧ t.inputCount = s.inputCount ∧ t.cfg = s.cfg) ∧
  (∀ s : State, let u := s.beginCycle
    (∀ r, u.reg r ≠ s.reg r → r = regIS ∨ (r = regSP ∧ s.latchRequest.takenInterrupt ≠ none)) ∧
    (u.pc ≠ s.pc ∨ u.ie ≠ s.ie ∨ u.mem ≠ s.mem → s.latchRequest.takenInterrupt ≠ none) ∧
    u.fl = s.fl ∧ u.run = s.run ∧ u.out = s.out ∧ u.diag = s.diag ∧ u.irq0 = s.irq0.tail ∧
    u.inputCount = s.inputCount + 1 ∧ u.cfg = s.cfg)

/-- 10_state.md section 5: the output stream only grows, by at most one event a cycle. That it is a list of events is the
spec's decision D14 (log 15). The parameters never change (the model's choice, log 1). -/
def Obligations.OutputIsAppendOnly : Prop :=
  ∀ s t : State, step s = .next t → (∃ new : List OutEvent, t.out = s.out ++ new ∧ new.length ≤ 1) ∧ t.cfg = s.cfg

/-! ### Encoding (30_encoding.md) -/

/-- 30_encoding.md sections 1 to 3: decoding the encoding of any instruction, whatever bytes follow, gives the instruction
and those bytes, for every legal parameter set. -/
def Obligations.DecodeInvertsEncode : Prop :=
  ∀ (c : Config) (i : Instr) (rest : List Byte), c.wellFormed = true → decode c (encode c i ++ rest) = .instr i rest

/-- 30_encoding.md sections 1 to 4: under `REGIDX_POLICY = fault` every byte string that decodes is the encoding of the
instruction it decodes to, so each instruction has one encoding. -/
def Obligations.EncodeInvertsDecode : Prop :=
  ∀ (c : Config) (bytes rest : List Byte) (i : Instr), c.wellFormed = true → c.regIdxPolicy = .fault →
    decode c bytes = .instr i rest → bytes = encode c i ++ rest

/-- 30_encoding.md sections 1 to 4: the decoder accepts exactly the well-formed bytes of WellFormed.lean, which state the
formats, the opcode values and the register-number rule on their own. The register-number rule is the spec's decision D9
(log 17). The statement ranges over parameter sets with an illegal `OPC_ADDI` too, where that the fixed rows win is the model's
choice, log 14. -/
def Obligations.DecoderAcceptsExactlyWellFormedBytes : Prop :=
  ∀ (c : Config) (ir opA opB : Byte), (∃ i, decodeInstr c ir opA opB = .ok i) ↔ bytesWellFormed c ir opA opB = true

/-- 30_encoding.md section 3 and section 4: 29 different opcodes, none with bits 7:6 = 11 (decisions D3, D4, D26). -/
def Obligations.OpcodeTableIsUnambiguous : Prop :=
  ∀ c : Config, c.wellFormed = true →
    ((opcodeTable c).map (·.1)).Nodup ∧ (opcodeTable c).length = 29 ∧
    ∀ ir : Byte, 0xC0 ≤ ir.toNat → lookupOpcode c ir = none

/-- 95_test_vectors.md Parts A and B: words written out byte by byte, one or more of every family. The opcode 0xA5 is the
spec's decision D4, the rejection of register number 8 its decision D9 (log 17); that it records no second byte is the model's
reading, log 7. -/
def Obligations.SampleWordsDecode : Prop :=
  decode .default [0xA2#8, 0x00#8, 0x01#8] = .instr (.mul 0 1) [] ∧
  decode .default [0xA5#8, 0x02#8, 0xFF#8] = .instr (.addi 2 0xFF#8) [] ∧
  decode .default [0x55#8, 0x03#8] = .instr (.jeq 3) [] ∧
  decode .default [0x11#8] = .instr .ret [] ∧
  decode .default [0x45#8, 0x07#8] = .instr (.push 7) [] ∧
  decode .default [0x82#8, 0x00#8, 0x08#8, 0x01#8] = .instr (.ldi 0 0x08#8) [0x01#8] ∧
  decode .default [0x84#8, 0x01#8, 0x00#8] = .instr (.st 1 0) [] ∧
  decode .default [0x52#8, 0x06#8] = .instr (.int 6) [] ∧
  decode .default [0x13#8] = .instr .iret [] ∧
  decode .default [0xA1#8, 0x00#8, 0x01#8] = .rejected (.unrecognizedOpcode 0xA1#8) ∧
  decode .default [0x65#8, 0x08#8] = .rejected (.regIdx 0x65#8 0x08#8 none)

/-! ### Reset, load and the invariant (70_reset_and_hazards.md) -/

/-- 10_state.md section 6: the reset values. Those of `x[7]`, `pc`, `ie`, memory and `out` are the source's; the zeros of
`x[0]` to `x[6]` and `fl` are the spec's decision D11 (log 3). -/
def Obligations.ResetValues : Prop :=
  (∀ r : Reg, State.reset.reg r = if r = 7 then 0xF4#8 else 0#8) ∧ State.reset.pc = 0#8 ∧ State.reset.fl = 0#8 ∧
  State.reset.ie = false ∧ State.reset.run = .running ∧ (∀ a, State.reset.memRead a = 0#8) ∧ State.reset.out = [] ∧
  State.reset.diag = none ∧ State.reset.cfg = .default ∧ resetWith .default [] = .next State.reset

/-- 70_reset_and_hazards.md section 1: reset with an image puts every piece of state at its reset value, for every legal
parameter set; memory holds the image from address 0 and zeros beyond it; an image above 256 bytes is refused (the spec's
decision D18). That `x[0]` to `x[6]` and `fl` have a reset value is the spec's decision D11 (log 3), and that the value of `ie`
is a parameter its decision D23. -/
def Obligations.ResetLoadsImageAndZeros : Prop :=
  ∀ (c : Config) (image : List Byte), c.wellFormed = true →
    (image.length ≤ 256 → ∃ t, resetWith c image = .next t ∧
      (∀ a : Addr, t.memRead a = image.getD a.toNat 0#8) ∧
      (∀ r : Reg, t.reg r = if r = 7 then 0xF4#8 else c.gprReset) ∧ t.pc = 0#8 ∧ t.fl = c.flReset ∧ t.ie = c.ieReset ∧
      t.run = .running ∧ t.out = [] ∧ t.diag = none ∧ t.cfg = c ∧ t.Inv) ∧
    (256 < image.length → resetWith c image = .refused .imageTooLong)

/-- 70_reset_and_hazards.md section 1 (the reset event, the spec's decisions D12 and D15): from any state, halted or not,
the reset event answers what `resetWith` answers for a fresh core with those parameters and that image (ResetLoadsImageAndZeros
says what state that is), but for the inputs still to come, which are the environment's (log 2). So nothing else of the old
state is left. -/
def Obligations.ResetEventForgetsTheOldState : Prop :=
  (∀ (s u : State) (image : List Byte), resetWith s.cfg image = .next u →
    ∃ t, s.resetEvent image = .next t ∧ t = { u with irq0 := s.irq0, inputCount := s.inputCount } ∧ t.Inv) ∧
  (∀ (s : State) (image : List Byte) (r : Refusal), resetWith s.cfg image = .refused r → s.resetEvent image = .refused r) ∧
  (∀ (s s' : State) (image : List Byte), s.cfg = s'.cfg → s.irq0 = s'.irq0 → s.inputCount = s'.inputCount →
    s.cfg.wellFormed = true → image.length ≤ 256 →
    s.resetEvent image = s'.resetEvent image ∧
    ∃ t, s.resetEvent image = .next t ∧ t.run = .running ∧ t.irq0 = s.irq0 ∧ t.inputCount = s.inputCount ∧ t.Inv)

/-- The invariant holds at reset (20_memory.md section 1, 10_state.md sections 4 and 5). -/
def Obligations.InvariantHoldsAtReset : Prop := State.reset.Inv

/-- Every cycle keeps the invariant: memory in canonical form, legal parameters, and a halted core still showing at `pc` the
HLT or the cause of the fatal error it recorded (10_state.md section 5, 60_exceptions.md section 1). That `pc` stays at that
instruction is the spec's decision D12 (log 17); that the record holds one error is the model's reading, log 6. -/
def Obligations.StepKeepsInvariant : Prop := ∀ s t : State, s.Inv → step s = .next t → t.Inv
end

