-- ==== Sys2Proof/Laws/State.lean ====
section
/-! SUPPORT. One lemma for each field of State under each update of Machine/Ops.lean, so that no proof unfolds a record
update. -/

namespace Sys2Proof.Machine

/-- Reading a register after a register write. -/
@[simp] theorem State.setReg_reg (s : State) (q : Reg) (v : Byte) (r : Reg) :
    (s.setReg q v).reg r = if r = q then v else s.reg r := by
  simp [State.reg, State.setReg, Vector.getElem_set, Fin.ext_iff, eq_comm]

/-! ### setReg -/

@[simp] theorem State.setReg_pc (s : State) (q : Reg) (v : Byte) : (s.setReg q v).pc = s.pc := rfl
@[simp] theorem State.setReg_fl (s : State) (q : Reg) (v : Byte) : (s.setReg q v).fl = s.fl := rfl
@[simp] theorem State.setReg_ie (s : State) (q : Reg) (v : Byte) : (s.setReg q v).ie = s.ie := rfl
@[simp] theorem State.setReg_run (s : State) (q : Reg) (v : Byte) : (s.setReg q v).run = s.run := rfl
@[simp] theorem State.setReg_mem (s : State) (q : Reg) (v : Byte) : (s.setReg q v).mem = s.mem := rfl
@[simp] theorem State.setReg_out (s : State) (q : Reg) (v : Byte) : (s.setReg q v).out = s.out := rfl
@[simp] theorem State.setReg_diag (s : State) (q : Reg) (v : Byte) : (s.setReg q v).diag = s.diag := rfl
@[simp] theorem State.setReg_irq0 (s : State) (q : Reg) (v : Byte) : (s.setReg q v).irq0 = s.irq0 := rfl
@[simp] theorem State.setReg_inputCount (s : State) (q : Reg) (v : Byte) : (s.setReg q v).inputCount = s.inputCount := rfl
@[simp] theorem State.setReg_cfg (s : State) (q : Reg) (v : Byte) : (s.setReg q v).cfg = s.cfg := rfl
@[simp] theorem State.setReg_memRead (s : State) (q : Reg) (v : Byte) (a : Addr) : (s.setReg q v).memRead a = s.memRead a := rfl

/-! ### setPc -/

@[simp] theorem State.setPc_reg (s : State) (p : Addr) (r : Reg) : (s.setPc p).reg r = s.reg r := rfl
@[simp] theorem State.setPc_pc (s : State) (p : Addr) : (s.setPc p).pc = p := rfl
@[simp] theorem State.setPc_fl (s : State) (p : Addr) : (s.setPc p).fl = s.fl := rfl
@[simp] theorem State.setPc_ie (s : State) (p : Addr) : (s.setPc p).ie = s.ie := rfl
@[simp] theorem State.setPc_run (s : State) (p : Addr) : (s.setPc p).run = s.run := rfl
@[simp] theorem State.setPc_mem (s : State) (p : Addr) : (s.setPc p).mem = s.mem := rfl
@[simp] theorem State.setPc_out (s : State) (p : Addr) : (s.setPc p).out = s.out := rfl
@[simp] theorem State.setPc_diag (s : State) (p : Addr) : (s.setPc p).diag = s.diag := rfl
@[simp] theorem State.setPc_irq0 (s : State) (p : Addr) : (s.setPc p).irq0 = s.irq0 := rfl
@[simp] theorem State.setPc_inputCount (s : State) (p : Addr) : (s.setPc p).inputCount = s.inputCount := rfl
@[simp] theorem State.setPc_cfg (s : State) (p : Addr) : (s.setPc p).cfg = s.cfg := rfl
@[simp] theorem State.setPc_memRead (s : State) (p : Addr) (a : Addr) : (s.setPc p).memRead a = s.memRead a := rfl

/-! ### setFl -/

@[simp] theorem State.setFl_reg (s : State) (v : Byte) (r : Reg) : (s.setFl v).reg r = s.reg r := rfl
@[simp] theorem State.setFl_pc (s : State) (v : Byte) : (s.setFl v).pc = s.pc := rfl
@[simp] theorem State.setFl_fl (s : State) (v : Byte) : (s.setFl v).fl = v := rfl
@[simp] theorem State.setFl_ie (s : State) (v : Byte) : (s.setFl v).ie = s.ie := rfl
@[simp] theorem State.setFl_run (s : State) (v : Byte) : (s.setFl v).run = s.run := rfl
@[simp] theorem State.setFl_mem (s : State) (v : Byte) : (s.setFl v).mem = s.mem := rfl
@[simp] theorem State.setFl_out (s : State) (v : Byte) : (s.setFl v).out = s.out := rfl
@[simp] theorem State.setFl_diag (s : State) (v : Byte) : (s.setFl v).diag = s.diag := rfl
@[simp] theorem State.setFl_irq0 (s : State) (v : Byte) : (s.setFl v).irq0 = s.irq0 := rfl
@[simp] theorem State.setFl_inputCount (s : State) (v : Byte) : (s.setFl v).inputCount = s.inputCount := rfl
@[simp] theorem State.setFl_cfg (s : State) (v : Byte) : (s.setFl v).cfg = s.cfg := rfl
@[simp] theorem State.setFl_memRead (s : State) (v : Byte) (a : Addr) : (s.setFl v).memRead a = s.memRead a := rfl

/-! ### setIe -/

@[simp] theorem State.setIe_reg (s : State) (b : Bool) (r : Reg) : (s.setIe b).reg r = s.reg r := rfl
@[simp] theorem State.setIe_pc (s : State) (b : Bool) : (s.setIe b).pc = s.pc := rfl
@[simp] theorem State.setIe_fl (s : State) (b : Bool) : (s.setIe b).fl = s.fl := rfl
@[simp] theorem State.setIe_ie (s : State) (b : Bool) : (s.setIe b).ie = b := rfl
@[simp] theorem State.setIe_run (s : State) (b : Bool) : (s.setIe b).run = s.run := rfl
@[simp] theorem State.setIe_mem (s : State) (b : Bool) : (s.setIe b).mem = s.mem := rfl
@[simp] theorem State.setIe_out (s : State) (b : Bool) : (s.setIe b).out = s.out := rfl
@[simp] theorem State.setIe_diag (s : State) (b : Bool) : (s.setIe b).diag = s.diag := rfl
@[simp] theorem State.setIe_irq0 (s : State) (b : Bool) : (s.setIe b).irq0 = s.irq0 := rfl
@[simp] theorem State.setIe_inputCount (s : State) (b : Bool) : (s.setIe b).inputCount = s.inputCount := rfl
@[simp] theorem State.setIe_cfg (s : State) (b : Bool) : (s.setIe b).cfg = s.cfg := rfl
@[simp] theorem State.setIe_memRead (s : State) (b : Bool) (a : Addr) : (s.setIe b).memRead a = s.memRead a := rfl

/-! ### memWrite -/

@[simp] theorem State.memWrite_reg (s : State) (w : Addr) (v : Byte) (r : Reg) : (s.memWrite w v).reg r = s.reg r := rfl
@[simp] theorem State.memWrite_pc (s : State) (w : Addr) (v : Byte) : (s.memWrite w v).pc = s.pc := rfl
@[simp] theorem State.memWrite_fl (s : State) (w : Addr) (v : Byte) : (s.memWrite w v).fl = s.fl := rfl
@[simp] theorem State.memWrite_ie (s : State) (w : Addr) (v : Byte) : (s.memWrite w v).ie = s.ie := rfl
@[simp] theorem State.memWrite_run (s : State) (w : Addr) (v : Byte) : (s.memWrite w v).run = s.run := rfl
theorem State.memWrite_mem (s : State) (w : Addr) (v : Byte) : (s.memWrite w v).mem = Memory.write s.mem w.toNat v := rfl
@[simp] theorem State.memWrite_out (s : State) (w : Addr) (v : Byte) : (s.memWrite w v).out = s.out := rfl
@[simp] theorem State.memWrite_diag (s : State) (w : Addr) (v : Byte) : (s.memWrite w v).diag = s.diag := rfl
@[simp] theorem State.memWrite_irq0 (s : State) (w : Addr) (v : Byte) : (s.memWrite w v).irq0 = s.irq0 := rfl
@[simp] theorem State.memWrite_inputCount (s : State) (w : Addr) (v : Byte) : (s.memWrite w v).inputCount = s.inputCount := rfl
@[simp] theorem State.memWrite_cfg (s : State) (w : Addr) (v : Byte) : (s.memWrite w v).cfg = s.cfg := rfl

/-! ### emit -/

@[simp] theorem State.emit_reg (s : State) (e : OutEvent) (r : Reg) : (s.emit e).reg r = s.reg r := rfl
@[simp] theorem State.emit_pc (s : State) (e : OutEvent) : (s.emit e).pc = s.pc := rfl
@[simp] theorem State.emit_fl (s : State) (e : OutEvent) : (s.emit e).fl = s.fl := rfl
@[simp] theorem State.emit_ie (s : State) (e : OutEvent) : (s.emit e).ie = s.ie := rfl
@[simp] theorem State.emit_run (s : State) (e : OutEvent) : (s.emit e).run = s.run := rfl
@[simp] theorem State.emit_mem (s : State) (e : OutEvent) : (s.emit e).mem = s.mem := rfl
@[simp] theorem State.emit_out (s : State) (e : OutEvent) : (s.emit e).out = s.out ++ [e] := rfl
@[simp] theorem State.emit_diag (s : State) (e : OutEvent) : (s.emit e).diag = s.diag := rfl
@[simp] theorem State.emit_irq0 (s : State) (e : OutEvent) : (s.emit e).irq0 = s.irq0 := rfl
@[simp] theorem State.emit_inputCount (s : State) (e : OutEvent) : (s.emit e).inputCount = s.inputCount := rfl
@[simp] theorem State.emit_cfg (s : State) (e : OutEvent) : (s.emit e).cfg = s.cfg := rfl
@[simp] theorem State.emit_memRead (s : State) (e : OutEvent) (a : Addr) : (s.emit e).memRead a = s.memRead a := rfl

/-! ### halt -/

@[simp] theorem State.halt_reg (s : State) (r : Reg) : (s.halt).reg r = s.reg r := rfl
@[simp] theorem State.halt_pc (s : State) : (s.halt).pc = s.pc := rfl
@[simp] theorem State.halt_fl (s : State) : (s.halt).fl = s.fl := rfl
@[simp] theorem State.halt_ie (s : State) : (s.halt).ie = s.ie := rfl
@[simp] theorem State.halt_run (s : State) : (s.halt).run = .halted .normalHalt := rfl
@[simp] theorem State.halt_mem (s : State) : (s.halt).mem = s.mem := rfl
@[simp] theorem State.halt_out (s : State) : (s.halt).out = s.out := rfl
@[simp] theorem State.halt_diag (s : State) : (s.halt).diag = s.diag := rfl
@[simp] theorem State.halt_irq0 (s : State) : (s.halt).irq0 = s.irq0 := rfl
@[simp] theorem State.halt_inputCount (s : State) : (s.halt).inputCount = s.inputCount := rfl
@[simp] theorem State.halt_cfg (s : State) : (s.halt).cfg = s.cfg := rfl
@[simp] theorem State.halt_memRead (s : State) (a : Addr) : (s.halt).memRead a = s.memRead a := rfl

/-! ### fatal -/

@[simp] theorem State.fatal_reg (s : State) (f : Fatal) (r : Reg) : (s.fatal f).reg r = s.reg r := rfl
@[simp] theorem State.fatal_pc (s : State) (f : Fatal) : (s.fatal f).pc = s.pc := rfl
@[simp] theorem State.fatal_fl (s : State) (f : Fatal) : (s.fatal f).fl = s.fl := rfl
@[simp] theorem State.fatal_ie (s : State) (f : Fatal) : (s.fatal f).ie = s.ie := rfl
@[simp] theorem State.fatal_run (s : State) (f : Fatal) : (s.fatal f).run = .halted f.code := rfl
@[simp] theorem State.fatal_mem (s : State) (f : Fatal) : (s.fatal f).mem = s.mem := rfl
@[simp] theorem State.fatal_out (s : State) (f : Fatal) : (s.fatal f).out = s.out := rfl
@[simp] theorem State.fatal_diag (s : State) (f : Fatal) : (s.fatal f).diag = some f := rfl
@[simp] theorem State.fatal_irq0 (s : State) (f : Fatal) : (s.fatal f).irq0 = s.irq0 := rfl
@[simp] theorem State.fatal_inputCount (s : State) (f : Fatal) : (s.fatal f).inputCount = s.inputCount := rfl
@[simp] theorem State.fatal_cfg (s : State) (f : Fatal) : (s.fatal f).cfg = s.cfg := rfl
@[simp] theorem State.fatal_memRead (s : State) (f : Fatal) (a : Addr) : (s.fatal f).memRead a = s.memRead a := rfl

/-! ### dropInput -/

@[simp] theorem State.dropInput_reg (s : State) (r : Reg) : s.dropInput.reg r = s.reg r := rfl
@[simp] theorem State.dropInput_pc (s : State) : s.dropInput.pc = s.pc := rfl
@[simp] theorem State.dropInput_fl (s : State) : s.dropInput.fl = s.fl := rfl
@[simp] theorem State.dropInput_ie (s : State) : s.dropInput.ie = s.ie := rfl
@[simp] theorem State.dropInput_run (s : State) : s.dropInput.run = s.run := rfl
@[simp] theorem State.dropInput_mem (s : State) : s.dropInput.mem = s.mem := rfl
@[simp] theorem State.dropInput_out (s : State) : s.dropInput.out = s.out := rfl
@[simp] theorem State.dropInput_diag (s : State) : s.dropInput.diag = s.diag := rfl
@[simp] theorem State.dropInput_irq0 (s : State) : s.dropInput.irq0 = s.irq0.tail := rfl
@[simp] theorem State.dropInput_inputCount (s : State) : s.dropInput.inputCount = s.inputCount + 1 := rfl
@[simp] theorem State.dropInput_cfg (s : State) : s.dropInput.cfg = s.cfg := rfl
@[simp] theorem State.dropInput_memRead (s : State) (a : Addr) : s.dropInput.memRead a = s.memRead a := rfl

/-! ### restart -/

@[simp] theorem State.restart_reg (s : State) (r : Reg) : s.restart.reg r = s.reg r := rfl
@[simp] theorem State.restart_pc (s : State) : s.restart.pc = s.pc := rfl
@[simp] theorem State.restart_fl (s : State) : s.restart.fl = s.fl := rfl
@[simp] theorem State.restart_ie (s : State) : s.restart.ie = s.ie := rfl
@[simp] theorem State.restart_run (s : State) : s.restart.run = .running := rfl
@[simp] theorem State.restart_mem (s : State) : s.restart.mem = s.mem := rfl
@[simp] theorem State.restart_out (s : State) : s.restart.out = s.out := rfl
@[simp] theorem State.restart_diag (s : State) : s.restart.diag = s.diag := rfl
@[simp] theorem State.restart_irq0 (s : State) : s.restart.irq0 = s.irq0 := rfl
@[simp] theorem State.restart_inputCount (s : State) : s.restart.inputCount = s.inputCount := rfl
@[simp] theorem State.restart_cfg (s : State) : s.restart.cfg = s.cfg := rfl
@[simp] theorem State.restart_memRead (s : State) (a : Addr) : s.restart.memRead a = s.memRead a := rfl

/-! ### withInputsOf -/

@[simp] theorem State.withInputsOf_reg (t s : State) (r : Reg) : (t.withInputsOf s).reg r = t.reg r := rfl
@[simp] theorem State.withInputsOf_pc (t s : State) : (t.withInputsOf s).pc = t.pc := rfl
@[simp] theorem State.withInputsOf_fl (t s : State) : (t.withInputsOf s).fl = t.fl := rfl
@[simp] theorem State.withInputsOf_ie (t s : State) : (t.withInputsOf s).ie = t.ie := rfl
@[simp] theorem State.withInputsOf_run (t s : State) : (t.withInputsOf s).run = t.run := rfl
@[simp] theorem State.withInputsOf_mem (t s : State) : (t.withInputsOf s).mem = t.mem := rfl
@[simp] theorem State.withInputsOf_out (t s : State) : (t.withInputsOf s).out = t.out := rfl
@[simp] theorem State.withInputsOf_diag (t s : State) : (t.withInputsOf s).diag = t.diag := rfl
@[simp] theorem State.withInputsOf_irq0 (t s : State) : (t.withInputsOf s).irq0 = s.irq0 := rfl
@[simp] theorem State.withInputsOf_inputCount (t s : State) : (t.withInputsOf s).inputCount = s.inputCount := rfl
@[simp] theorem State.withInputsOf_cfg (t s : State) : (t.withInputsOf s).cfg = t.cfg := rfl
@[simp] theorem State.withInputsOf_memRead (t s : State) (a : Addr) : (t.withInputsOf s).memRead a = t.memRead a := rfl

/-! ### Two states with the same parts are the same state -/

/-- Extensionality through `State.reg`. -/
theorem State.ext_reg {s t : State} (hx : ∀ r, s.reg r = t.reg r) (hpc : s.pc = t.pc) (hfl : s.fl = t.fl)
    (hie : s.ie = t.ie) (hrun : s.run = t.run) (hmem : s.mem = t.mem) (hout : s.out = t.out) (hdiag : s.diag = t.diag)
    (hirq : s.irq0 = t.irq0) (hcount : s.inputCount = t.inputCount) (hcfg : s.cfg = t.cfg) : s = t := by
  obtain ⟨x, _, _, _, _, _, _, _, _, _, _⟩ := s
  obtain ⟨y, _, _, _, _, _, _, _, _, _, _⟩ := t
  have hxy : x = y := Vector.ext fun k hk => hx ⟨k, hk⟩
  simp_all

end Sys2Proof.Machine
end

