-- ==== Sys2Proof/Laws/Memory.lean ====
section
/-! SUPPORT. Memory: reading after writing, and the canonical form. -/

namespace Sys2Proof.Machine

/-- Nothing below the first address of a canonical memory is listed. -/
theorem Memory.read_of_lt {m : Memory} {lo a : Nat} (h : m.wfFrom lo = true) (ha : a < lo) : m.read a = 0#8 := by
  induction m generalizing lo with
  | nil => rfl
  | cons c m ih =>
    obtain ⟨b, w⟩ := c
    simp only [Memory.wfFrom, Bool.and_eq_true, decide_eq_true_eq] at h
    have : a ≠ b := by omega
    simp only [Memory.read, if_neg this]
    exact ih h.2 (by omega)

/-- A canonical memory is canonical from any smaller address. -/
theorem Memory.wfFrom_mono {m : Memory} {lo lo' : Nat} (h : m.wfFrom lo = true) (hle : lo' ≤ lo) :
    m.wfFrom lo' = true := by
  cases m with
  | nil => rfl
  | cons c m =>
    obtain ⟨b, w⟩ := c
    simp only [Memory.wfFrom, Bool.and_eq_true, decide_eq_true_eq] at h ⊢
    exact ⟨⟨⟨by omega, h.1.1.2⟩, h.1.2⟩, h.2⟩

/-- Writing keeps the canonical form. -/
theorem Memory.wfFrom_write {m : Memory} {lo a : Nat} {v : Byte} (h : m.wfFrom lo = true) (hlo : lo ≤ a)
    (ha : a < memSize) : (m.write a v).wfFrom lo = true := by
  induction m generalizing lo with
  | nil =>
    by_cases hv : v = 0#8 <;> simp [Memory.write, Memory.wfFrom, hv, hlo, ha]
  | cons c m ih =>
    obtain ⟨b, w⟩ := c
    have h' := h
    simp only [Memory.wfFrom, Bool.and_eq_true, decide_eq_true_eq] at h'
    obtain ⟨⟨⟨h1, h2⟩, h3⟩, h4⟩ := h'
    rcases lt_trichotomy a b with hab | hab | hab
    · by_cases hv : v = 0#8
      · simpa [Memory.write, hab, hv] using h
      · simp only [Memory.write, hab, if_true, if_neg hv, Memory.wfFrom, Bool.and_eq_true, decide_eq_true_eq]
        exact ⟨⟨⟨hlo, ha⟩, by simpa using hv⟩, ⟨⟨by omega, h2⟩, h3⟩, h4⟩
    · subst hab
      by_cases hv : v = 0#8
      · simp only [Memory.write, lt_irrefl, if_false, if_true, hv]
        exact Memory.wfFrom_mono h4 (by omega)
      · simp only [Memory.write, lt_irrefl, if_false, if_true, if_neg hv, Memory.wfFrom, Bool.and_eq_true,
          decide_eq_true_eq]
        exact ⟨⟨⟨hlo, ha⟩, by simpa using hv⟩, h4⟩
    · have hna : ¬ a < b := by omega
      have hne : a ≠ b := by omega
      simp only [Memory.write, if_neg hna, if_neg hne, Memory.wfFrom, Bool.and_eq_true, decide_eq_true_eq]
      exact ⟨⟨⟨h1, h2⟩, h3⟩, ih h4 (by omega)⟩

/-- Reading after a write, at any two addresses. -/
theorem Memory.read_write {m : Memory} {lo : Nat} (h : m.wfFrom lo = true) (a a' : Nat) (v : Byte) :
    (m.write a v).read a' = if a' = a then v else m.read a' := by
  induction m generalizing lo with
  | nil =>
    by_cases hv : v = 0#8 <;> by_cases ha : a' = a <;> simp [Memory.write, Memory.read, hv, ha]
  | cons c m ih =>
    obtain ⟨b, w⟩ := c
    have h' := h
    simp only [Memory.wfFrom, Bool.and_eq_true, decide_eq_true_eq] at h'
    obtain ⟨⟨⟨h1, h2⟩, h3⟩, h4⟩ := h'
    rcases lt_trichotomy a b with hab | hab | hab
    · by_cases hv : v = 0#8
      · by_cases ha : a' = a
        · subst ha
          have hz : Memory.read m a' = 0#8 := Memory.read_of_lt h4 (by omega)
          simp [Memory.write, Memory.read, hab, hv, hz, show a' ≠ b by omega]
        · simp [Memory.write, Memory.read, hab, hv, ha]
      · simp [Memory.write, Memory.read, hab, hv]
    · subst hab
      by_cases hv : v = 0#8
      · by_cases ha : a' = a
        · subst ha
          have hz : Memory.read m a' = 0#8 := Memory.read_of_lt h4 (by omega)
          simp [Memory.write, hv, hz]
        · simp [Memory.write, Memory.read, hv, ha]
      · by_cases ha : a' = a <;> simp [Memory.write, Memory.read, hv, ha]
    · have hna : ¬ a < b := by omega
      have hne : a ≠ b := by omega
      simp only [Memory.write, if_neg hna, if_neg hne, Memory.read, ih h4]
      by_cases ha : a' = a
      · simp [ha, hne]
      · simp [ha]

/-- Two canonical memories that read alike are equal. -/
theorem Memory.ext_read {m n : Memory} {lo : Nat} (hm : m.wfFrom lo = true) (hn : n.wfFrom lo = true)
    (h : ∀ a, m.read a = n.read a) : m = n := by
  induction m generalizing n lo with
  | nil =>
    cases n with
    | nil => rfl
    | cons c n =>
      obtain ⟨b, w⟩ := c
      have := h b
      simp_all [Memory.read, Memory.wfFrom]
  | cons c m ih =>
    obtain ⟨b, w⟩ := c
    simp only [Memory.wfFrom, Bool.and_eq_true, decide_eq_true_eq] at hm
    obtain ⟨⟨⟨h1, h2⟩, h3⟩, h4⟩ := hm
    cases n with
    | nil =>
      have := h b
      simp_all [Memory.read]
    | cons d n =>
      obtain ⟨e, u⟩ := d
      simp only [Memory.wfFrom, Bool.and_eq_true, decide_eq_true_eq] at hn
      obtain ⟨⟨⟨g1, g2⟩, g3⟩, g4⟩ := hn
      rcases lt_trichotomy b e with hbe | hbe | hbe
      · have := h b
        have hz : Memory.read n b = 0#8 := Memory.read_of_lt g4 (by omega)
        simp_all [Memory.read, show b ≠ e by omega]
      · subst hbe
        have hw : w = u := by simpa [Memory.read] using h b
        subst hw
        have : m = n := by
          refine ih h4 g4 fun a => ?_
          by_cases ha : a = b
          · subst ha
            rw [Memory.read_of_lt h4 (by omega), Memory.read_of_lt g4 (by omega)]
          · simpa [Memory.read, ha] using h a
        rw [this]
      · have := h e
        have hz : Memory.read m e = 0#8 := Memory.read_of_lt h4 (by omega)
        simp_all [Memory.read, show e ≠ b by omega]

/-- `MemRead` after `MemWrite`. -/
theorem State.memRead_memWrite {s : State} (h : s.mem.wf = true) (w a : Addr) (v : Byte) :
    (s.memWrite w v).memRead a = if a = w then v else s.memRead a := by
  simp only [State.memRead, State.memWrite_mem, Memory.read_write h, BitVec.toNat_inj]

/-- `MemWrite` keeps the canonical form. -/
@[simp] theorem State.memWrite_wf {s : State} (h : s.mem.wf = true) (w : Addr) (v : Byte) :
    (s.memWrite w v).mem.wf = true :=
  Memory.wfFrom_write h (Nat.zero_le _) w.isLt

/-- The memory of an image is canonical. -/
theorem Memory.ofImage_wfFrom (a : Nat) (image : List Byte) (h : a + image.length ≤ memSize) :
    (Memory.ofImage a image).wfFrom a = true := by
  induction image generalizing a with
  | nil => rfl
  | cons v image ih =>
    simp only [List.length_cons] at h
    have := ih (a + 1) (by omega)
    by_cases hv : v = 0#8
    · simp only [Memory.ofImage, hv, if_true]
      exact Memory.wfFrom_mono this (by omega)
    · simp only [Memory.ofImage, if_neg hv, Memory.wfFrom, Bool.and_eq_true, decide_eq_true_eq]
      exact ⟨⟨⟨le_rfl, by omega⟩, by simpa using hv⟩, this⟩

/-- Reading the memory of an image: the image's byte, and 0 outside it (R192). -/
theorem Memory.ofImage_read (lo : Nat) (image : List Byte) (a : Nat) :
    (Memory.ofImage lo image).read a = if a < lo then 0#8 else image.getD (a - lo) 0#8 := by
  induction image generalizing lo with
  | nil => simp [Memory.ofImage, Memory.read]
  | cons v image ih =>
    have later : lo < a → (v :: image).getD (a - lo) 0#8 = image.getD (a - (lo + 1)) 0#8 := fun h => by
      rw [show a - lo = (a - (lo + 1)) + 1 by omega, List.getD_cons_succ]
    by_cases hv : v = 0#8
    · rw [Memory.ofImage, if_pos hv, ih]
      rcases Nat.lt_trichotomy a lo with h | h | h
      · rw [if_pos (by omega), if_pos h]
      · simp [h, hv]
      · rw [if_neg (by omega), if_neg (by omega), later h]
    · rw [Memory.ofImage, if_neg hv, Memory.read, ih]
      rcases Nat.lt_trichotomy a lo with h | h | h
      · rw [if_neg (by omega), if_pos (by omega), if_pos h]
      · simp [h]
      · rw [if_neg (by omega), if_neg (by omega), if_neg (by omega), later h]

end Sys2Proof.Machine
end

