-- ==== Sys2Proof/Laws/Ops.lean ====
section
/-! SUPPORT. What each shared operation of Machine/ can do, said once: the stack primitives, the dispatcher's advance, the
request latch, interrupt entry and return, `trunc8` and the ALU operations, the flag computation, the step. -/

namespace Sys2Proof.Machine

/-! ### The dispatcher's advance (R78) -/

theorem State.advance_pc (s : State) (ir : Byte) :
    (s.advance ir).pc = if setsPc ir then s.pc else s.pc + BitVec.ofNat 8 (nops ir + 1) := by
  unfold State.advance; split <;> simp_all

/-- With bit 4 set the dispatcher leaves the state as the handler left it. -/
theorem State.advance_of_setsPc {s : State} {ir : Byte} (h : setsPc ir = true) : s.advance ir = s := by
  simp [State.advance, h]

@[simp] theorem State.advance_reg (s : State) (ir : Byte) (r : Reg) : (s.advance ir).reg r = s.reg r := by
  unfold State.advance; split <;> simp
@[simp] theorem State.advance_fl (s : State) (ir : Byte) : (s.advance ir).fl = s.fl := by
  unfold State.advance; split <;> simp
@[simp] theorem State.advance_ie (s : State) (ir : Byte) : (s.advance ir).ie = s.ie := by
  unfold State.advance; split <;> simp
@[simp] theorem State.advance_run (s : State) (ir : Byte) : (s.advance ir).run = s.run := by
  unfold State.advance; split <;> simp
@[simp] theorem State.advance_mem (s : State) (ir : Byte) : (s.advance ir).mem = s.mem := by
  unfold State.advance; split <;> simp
@[simp] theorem State.advance_out (s : State) (ir : Byte) : (s.advance ir).out = s.out := by
  unfold State.advance; split <;> simp
@[simp] theorem State.advance_diag (s : State) (ir : Byte) : (s.advance ir).diag = s.diag := by
  unfold State.advance; split <;> simp
@[simp] theorem State.advance_irq0 (s : State) (ir : Byte) : (s.advance ir).irq0 = s.irq0 := by
  unfold State.advance; split <;> simp
@[simp] theorem State.advance_inputCount (s : State) (ir : Byte) : (s.advance ir).inputCount = s.inputCount := by
  unfold State.advance; split <;> simp
@[simp] theorem State.advance_cfg (s : State) (ir : Byte) : (s.advance ir).cfg = s.cfg := by
  unfold State.advance; split <;> simp
@[simp] theorem State.advance_memRead (s : State) (ir : Byte) (a : Addr) : (s.advance ir).memRead a = s.memRead a := by
  unfold State.advance; split <;> simp

/-- A legal `OPC_ADDI` announces two operand bytes (R5). -/
theorem nops_opcAddi {c : Config} (h : c.wellFormed = true) : nops c.opcAddi = 2 := by
  have key : ∀ v : Byte, v.extractLsb' 6 2 == 0b10#2 → nops v = 2 := by decide
  simp only [Config.wellFormed, Bool.and_eq_true, Config.addiHasTwoOperands] at h
  exact key _ h.1.1

/-- A legal `OPC_ADDI` leaves `pc` to the dispatcher (R5). -/
theorem setsPc_opcAddi {c : Config} (h : c.wellFormed = true) : setsPc c.opcAddi = false := by
  simp only [Config.wellFormed, Bool.and_eq_true, Config.addiLeavesPcToDispatcher, Bool.not_eq_true'] at h
  exact h.1.2

/-! ### The stack primitives (R130 to R132) -/

@[simp] theorem State.push_reg (s : State) (v : Byte) (r : Reg) :
    (s.push v).reg r = if r = 7 then s.reg 7 - 1#8 else s.reg r := by
  simp [State.push, regSP]

@[simp] theorem State.push_pc (s : State) (v : Byte) : (s.push v).pc = s.pc := rfl
@[simp] theorem State.push_fl (s : State) (v : Byte) : (s.push v).fl = s.fl := rfl
@[simp] theorem State.push_ie (s : State) (v : Byte) : (s.push v).ie = s.ie := rfl
@[simp] theorem State.push_run (s : State) (v : Byte) : (s.push v).run = s.run := rfl
@[simp] theorem State.push_out (s : State) (v : Byte) : (s.push v).out = s.out := rfl
@[simp] theorem State.push_diag (s : State) (v : Byte) : (s.push v).diag = s.diag := rfl
@[simp] theorem State.push_irq0 (s : State) (v : Byte) : (s.push v).irq0 = s.irq0 := rfl
@[simp] theorem State.push_inputCount (s : State) (v : Byte) : (s.push v).inputCount = s.inputCount := rfl
@[simp] theorem State.push_cfg (s : State) (v : Byte) : (s.push v).cfg = s.cfg := rfl

/-- `push` writes one byte, at the decremented SP. -/
theorem State.push_memRead {s : State} (h : s.mem.wf = true) (v : Byte) (a : Addr) :
    (s.push v).memRead a = if a = s.reg 7 - 1#8 then v else s.memRead a := by
  have h' : (s.setReg 7 (s.reg 7 - 1#8)).mem.wf = true := h
  simp [State.push, regSP, State.memRead_memWrite h']

@[simp] theorem State.push_wf {s : State} (h : s.mem.wf = true) (v : Byte) : (s.push v).mem.wf = true :=
  State.memWrite_wf (s := s.setReg 7 (s.reg 7 - 1#8)) h _ v

@[simp] theorem State.pop_fst (s : State) : s.pop.1 = s.memRead (s.reg 7) := rfl

@[simp] theorem State.pop_snd (s : State) : s.pop.2 = s.setReg 7 (s.reg 7 + 1#8) := rfl

@[simp] theorem State.popReg_reg (s : State) (q r : Reg) : (s.popReg q).reg r =
    if r = q then s.memRead (s.reg 7) else if r = 7 then s.reg 7 + 1#8 else s.reg r := by
  simp [State.popReg, State.pop, regSP]

@[simp] theorem State.popReg_pc (s : State) (q : Reg) : (s.popReg q).pc = s.pc := rfl
@[simp] theorem State.popReg_fl (s : State) (q : Reg) : (s.popReg q).fl = s.fl := rfl
@[simp] theorem State.popReg_ie (s : State) (q : Reg) : (s.popReg q).ie = s.ie := rfl
@[simp] theorem State.popReg_run (s : State) (q : Reg) : (s.popReg q).run = s.run := rfl
@[simp] theorem State.popReg_mem (s : State) (q : Reg) : (s.popReg q).mem = s.mem := rfl
@[simp] theorem State.popReg_out (s : State) (q : Reg) : (s.popReg q).out = s.out := rfl
@[simp] theorem State.popReg_diag (s : State) (q : Reg) : (s.popReg q).diag = s.diag := rfl
@[simp] theorem State.popReg_irq0 (s : State) (q : Reg) : (s.popReg q).irq0 = s.irq0 := rfl
@[simp] theorem State.popReg_inputCount (s : State) (q : Reg) : (s.popReg q).inputCount = s.inputCount := rfl
@[simp] theorem State.popReg_cfg (s : State) (q : Reg) : (s.popReg q).cfg = s.cfg := rfl
@[simp] theorem State.popReg_memRead (s : State) (q : Reg) (a : Addr) : (s.popReg q).memRead a = s.memRead a := rfl

@[simp] theorem State.popFl_reg (s : State) (r : Reg) :
    s.popFl.reg r = if r = 7 then s.reg 7 + 1#8 else s.reg r := by
  simp [State.popFl, State.pop, regSP]

@[simp] theorem State.popFl_pc (s : State) : s.popFl.pc = s.pc := rfl
@[simp] theorem State.popFl_fl (s : State) : s.popFl.fl = s.memRead (s.reg 7) := rfl
@[simp] theorem State.popFl_ie (s : State) : s.popFl.ie = s.ie := rfl
@[simp] theorem State.popFl_run (s : State) : s.popFl.run = s.run := rfl
@[simp] theorem State.popFl_mem (s : State) : s.popFl.mem = s.mem := rfl
@[simp] theorem State.popFl_out (s : State) : s.popFl.out = s.out := rfl
@[simp] theorem State.popFl_diag (s : State) : s.popFl.diag = s.diag := rfl
@[simp] theorem State.popFl_irq0 (s : State) : s.popFl.irq0 = s.irq0 := rfl
@[simp] theorem State.popFl_inputCount (s : State) : s.popFl.inputCount = s.inputCount := rfl
@[simp] theorem State.popFl_cfg (s : State) : s.popFl.cfg = s.cfg := rfl
@[simp] theorem State.popFl_memRead (s : State) (a : Addr) : s.popFl.memRead a = s.memRead a := rfl

@[simp] theorem State.popPc_reg (s : State) (r : Reg) :
    s.popPc.reg r = if r = 7 then s.reg 7 + 1#8 else s.reg r := by
  simp [State.popPc, State.pop, regSP]

@[simp] theorem State.popPc_pc (s : State) : s.popPc.pc = s.memRead (s.reg 7) := rfl
@[simp] theorem State.popPc_fl (s : State) : s.popPc.fl = s.fl := rfl
@[simp] theorem State.popPc_ie (s : State) : s.popPc.ie = s.ie := rfl
@[simp] theorem State.popPc_run (s : State) : s.popPc.run = s.run := rfl
@[simp] theorem State.popPc_mem (s : State) : s.popPc.mem = s.mem := rfl
@[simp] theorem State.popPc_out (s : State) : s.popPc.out = s.out := rfl
@[simp] theorem State.popPc_diag (s : State) : s.popPc.diag = s.diag := rfl
@[simp] theorem State.popPc_irq0 (s : State) : s.popPc.irq0 = s.irq0 := rfl
@[simp] theorem State.popPc_inputCount (s : State) : s.popPc.inputCount = s.inputCount := rfl
@[simp] theorem State.popPc_cfg (s : State) : s.popPc.cfg = s.cfg := rfl
@[simp] theorem State.popPc_memRead (s : State) (a : Addr) : s.popPc.memRead a = s.memRead a := rfl

/-! ### Interrupt request -/

/-- A request changes IS at most, and there only bit `n`, when there is one (R150). -/
theorem State.requestInterrupt_reg (s : State) (n : Nat) (r : Reg) : (s.requestInterrupt n).reg r =
    if r = 6 ∧ n ≤ 7 then s.reg 6 ||| 1#8 <<< n else s.reg r := by
  by_cases h : n ≤ 7 <;> simp [State.requestInterrupt, h, regIS]

/-- Bit `k` of IS after a request for interrupt `n`. -/
theorem State.requestInterrupt_bit (s : State) (n : Nat) {k : Nat} (hk : k < 8) :
    ((s.requestInterrupt n).reg 6).getLsbD k = ((s.reg 6).getLsbD k || decide (n = k)) := by
  rw [State.requestInterrupt_reg]
  by_cases hn : n ≤ 7
  · have hbit : (1#8 <<< n).getLsbD k = decide (n = k) := by
      have : ∀ n k : Fin 8, (1#8 <<< n.val).getLsbD k.val = decide (n.val = k.val) := by decide
      exact this ⟨n, by omega⟩ ⟨k, hk⟩
    simp [hn, hbit]
  · have : n ≠ k := by omega
    simp [hn, this]

@[simp] theorem State.requestInterrupt_pc (s : State) (n : Nat) : (s.requestInterrupt n).pc = s.pc := by
  unfold State.requestInterrupt; split <;> rfl
@[simp] theorem State.requestInterrupt_fl (s : State) (n : Nat) : (s.requestInterrupt n).fl = s.fl := by
  unfold State.requestInterrupt; split <;> rfl
@[simp] theorem State.requestInterrupt_ie (s : State) (n : Nat) : (s.requestInterrupt n).ie = s.ie := by
  unfold State.requestInterrupt; split <;> rfl
@[simp] theorem State.requestInterrupt_run (s : State) (n : Nat) : (s.requestInterrupt n).run = s.run := by
  unfold State.requestInterrupt; split <;> rfl
@[simp] theorem State.requestInterrupt_mem (s : State) (n : Nat) : (s.requestInterrupt n).mem = s.mem := by
  unfold State.requestInterrupt; split <;> rfl
@[simp] theorem State.requestInterrupt_out (s : State) (n : Nat) : (s.requestInterrupt n).out = s.out := by
  unfold State.requestInterrupt; split <;> rfl
@[simp] theorem State.requestInterrupt_diag (s : State) (n : Nat) : (s.requestInterrupt n).diag = s.diag := by
  unfold State.requestInterrupt; split <;> rfl
@[simp] theorem State.requestInterrupt_irq0 (s : State) (n : Nat) : (s.requestInterrupt n).irq0 = s.irq0 := by
  unfold State.requestInterrupt; split <;> rfl
@[simp] theorem State.requestInterrupt_inputCount (s : State) (n : Nat) : (s.requestInterrupt n).inputCount = s.inputCount := by
  unfold State.requestInterrupt; split <;> rfl
@[simp] theorem State.requestInterrupt_cfg (s : State) (n : Nat) : (s.requestInterrupt n).cfg = s.cfg := by
  unfold State.requestInterrupt; split <;> rfl
@[simp] theorem State.requestInterrupt_memRead (s : State) (n : Nat) (a : Addr) :
    (s.requestInterrupt n).memRead a = s.memRead a := by
  simp [State.memRead]

/-! ### Phase A and interrupt entry and return -/

@[simp] theorem State.latchRequest_pc (s : State) : s.latchRequest.pc = s.pc := rfl
@[simp] theorem State.latchRequest_fl (s : State) : s.latchRequest.fl = s.fl := rfl
@[simp] theorem State.latchRequest_ie (s : State) : s.latchRequest.ie = s.ie := rfl
@[simp] theorem State.latchRequest_run (s : State) : s.latchRequest.run = s.run := rfl
@[simp] theorem State.latchRequest_mem (s : State) : s.latchRequest.mem = s.mem := rfl
@[simp] theorem State.latchRequest_out (s : State) : s.latchRequest.out = s.out := rfl
@[simp] theorem State.latchRequest_diag (s : State) : s.latchRequest.diag = s.diag := rfl
@[simp] theorem State.latchRequest_cfg (s : State) : s.latchRequest.cfg = s.cfg := rfl
@[simp] theorem State.latchRequest_irq0 (s : State) : s.latchRequest.irq0 = s.irq0.tail := rfl
@[simp] theorem State.latchRequest_inputCount (s : State) : s.latchRequest.inputCount = s.inputCount + 1 := rfl
@[simp] theorem State.latchRequest_memRead (s : State) (a : Addr) : s.latchRequest.memRead a = s.memRead a := rfl

/-- When a request comes: the machine has the input, and the listed value, or past the list the free one, is high (R22). -/
theorem State.irq0Req_iff (s : State) : s.irq0Req = true ↔ s.cfg.hasIrq0 = true ∧
    (s.irq0.head? = some true ∨ (s.irq0 = [] ∧ Config.irq0Input s.inputCount = true)) := by
  unfold State.irq0Req
  cases s.irq0 <;> simp

/-- Phase A changes IS at most (R71). -/
theorem State.latchRequest_reg (s : State) (r : Reg) : s.latchRequest.reg r =
    if r = 6 ∧ s.irq0Req = true then s.reg 6 ||| 0x01#8 else s.reg r := by
  by_cases h : s.irq0Req = true <;> simp [State.latchRequest, h, regIS]
  rintro rfl
  rfl

/-- Interrupt entry moves SP down by nine and clears the taken bit of IS (R170). -/
theorem State.interruptEntry_reg (s : State) (i : Fin 8) (r : Reg) : (s.interruptEntry i).reg r =
    if r = 7 then s.reg 7 - 9#8 else if r = 6 then s.reg 6 &&& ~~~(1#8 <<< i.val) else s.reg r := by
  by_cases h7 : r = 7
  · subst h7
    simp [State.interruptEntry, regIS, BitVec.sub_eq_add_neg, BitVec.add_assoc]
  · simp [State.interruptEntry, regIS, h7]

/-- The IS bits after an entry: the taken one is clear, the others are kept. -/
theorem State.clearBit (v : Byte) (i : Fin 8) (k : Nat) :
    (v &&& ~~~(1#8 <<< i.val)).getLsbD k = (v.getLsbD k && k != i.val) := by
  by_cases hk : k < 8
  · have : ∀ (i k : Fin 8), (~~~(1#8 <<< i.val)).getLsbD k.val = (k.val != i.val) := by decide
    rw [BitVec.getLsbD_and, this i ⟨k, hk⟩]
  · have h8 : 8 ≤ k := by omega
    rw [BitVec.getLsbD_of_ge _ k h8, BitVec.getLsbD_of_ge v k h8, Bool.false_and]

@[simp] theorem State.interruptEntry_ie (s : State) (i : Fin 8) : (s.interruptEntry i).ie = false := rfl
@[simp] theorem State.interruptEntry_fl (s : State) (i : Fin 8) : (s.interruptEntry i).fl = s.fl := rfl
@[simp] theorem State.interruptEntry_run (s : State) (i : Fin 8) : (s.interruptEntry i).run = s.run := rfl
@[simp] theorem State.interruptEntry_out (s : State) (i : Fin 8) : (s.interruptEntry i).out = s.out := rfl
@[simp] theorem State.interruptEntry_diag (s : State) (i : Fin 8) : (s.interruptEntry i).diag = s.diag := rfl
@[simp] theorem State.interruptEntry_irq0 (s : State) (i : Fin 8) : (s.interruptEntry i).irq0 = s.irq0 := rfl
@[simp] theorem State.interruptEntry_inputCount (s : State) (i : Fin 8) : (s.interruptEntry i).inputCount = s.inputCount := rfl
@[simp] theorem State.interruptEntry_cfg (s : State) (i : Fin 8) : (s.interruptEntry i).cfg = s.cfg := rfl

@[simp] theorem State.interruptEntry_wf {s : State} (h : s.mem.wf = true) (i : Fin 8) :
    (s.interruptEntry i).mem.wf = true := by
  unfold State.interruptEntry
  exact State.push_wf (State.push_wf (State.push_wf (State.push_wf (State.push_wf (State.push_wf (State.push_wf
    (State.push_wf (State.push_wf (s := (s.setIe false).setReg _ _) h _) _) _) _) _) _) _) _) _

/-- Every byte of memory after an entry: the nine bytes of the frame, and the rest as before (R170). -/
theorem State.interruptEntry_memRead {s : State} (h : s.mem.wf = true) (i : Fin 8) (a : Addr) :
    (s.interruptEntry i).memRead a =
      if a = s.reg 7 - 9#8 then (s.interruptEntry i).reg 6
      else if a = s.reg 7 - 8#8 then s.reg 5
      else if a = s.reg 7 - 7#8 then s.reg 4
      else if a = s.reg 7 - 6#8 then s.reg 3
      else if a = s.reg 7 - 5#8 then s.reg 2
      else if a = s.reg 7 - 4#8 then s.reg 1
      else if a = s.reg 7 - 3#8 then s.reg 0
      else if a = s.reg 7 - 2#8 then s.fl
      else if a = s.reg 7 - 1#8 then s.pc
      else s.memRead a := by
  unfold State.interruptEntry
  extract_lets s1 s2 s3 s4 s5 s6 s7 s8 s9 s10 s11
  have w2 : s2.mem.wf = true := h
  have w3 := State.push_wf w2 s2.pc
  have w4 := State.push_wf w3 s3.fl
  have w5 := State.push_wf w4 (s4.reg 0)
  have w6 := State.push_wf w5 (s5.reg 1)
  have w7 := State.push_wf w6 (s6.reg 2)
  have w8 := State.push_wf w7 (s7.reg 3)
  have w9 := State.push_wf w8 (s8.reg 4)
  have w10 := State.push_wf w9 (s9.reg 5)
  rw [State.setPc_memRead, State.push_memRead w10, State.push_memRead w9, State.push_memRead w8, State.push_memRead w7,
    State.push_memRead w6, State.push_memRead w5, State.push_memRead w4, State.push_memRead w3, State.push_memRead w2]
  simp [s11, s10, s9, s8, s7, s6, s5, s4, s3, s2, s1, regIS, BitVec.sub_eq_add_neg, BitVec.add_assoc]

/-- Phase B either enters the taken interrupt or does nothing (R72). -/
theorem State.interruptCheck_cases (s : State) :
    (∃ i, s.takenInterrupt = some i ∧ s.interruptCheck = s.interruptEntry i) ∨
    (s.takenInterrupt = none ∧ s.interruptCheck = s) := by
  unfold State.interruptCheck
  cases h : s.takenInterrupt with
  | some i => exact .inl ⟨i, rfl, rfl⟩
  | none => exact .inr ⟨rfl, rfl⟩

/-- The return from an interrupt, register by register (R151). -/
theorem State.interruptReturn_reg (s : State) (r : Reg) : s.interruptReturn.reg r =
    match r with
    | 0 => s.memRead (s.reg 7 + 6#8)
    | 1 => s.memRead (s.reg 7 + 5#8)
    | 2 => s.memRead (s.reg 7 + 4#8)
    | 3 => s.memRead (s.reg 7 + 3#8)
    | 4 => s.memRead (s.reg 7 + 2#8)
    | 5 => s.memRead (s.reg 7 + 1#8)
    | 6 => s.memRead (s.reg 7)
    | 7 => s.reg 7 + 9#8 := by
  fin_cases r <;> simp [State.interruptReturn, BitVec.add_assoc]

@[simp] theorem State.interruptReturn_fl (s : State) : s.interruptReturn.fl = s.memRead (s.reg 7 + 7#8) := by
  simp [State.interruptReturn, BitVec.add_assoc]

@[simp] theorem State.interruptReturn_pc (s : State) : s.interruptReturn.pc = s.memRead (s.reg 7 + 8#8) := by
  simp [State.interruptReturn, BitVec.add_assoc]

@[simp] theorem State.interruptReturn_ie (s : State) : s.interruptReturn.ie = true := by
  simp [State.interruptReturn]
@[simp] theorem State.interruptReturn_run (s : State) : s.interruptReturn.run = s.run := by
  simp [State.interruptReturn]
@[simp] theorem State.interruptReturn_mem (s : State) : s.interruptReturn.mem = s.mem := by
  simp [State.interruptReturn]
@[simp] theorem State.interruptReturn_out (s : State) : s.interruptReturn.out = s.out := by
  simp [State.interruptReturn]
@[simp] theorem State.interruptReturn_diag (s : State) : s.interruptReturn.diag = s.diag := by
  simp [State.interruptReturn]
@[simp] theorem State.interruptReturn_irq0 (s : State) : s.interruptReturn.irq0 = s.irq0 := by
  simp [State.interruptReturn]
@[simp] theorem State.interruptReturn_inputCount (s : State) : s.interruptReturn.inputCount = s.inputCount := by
  simp [State.interruptReturn]
@[simp] theorem State.interruptReturn_cfg (s : State) : s.interruptReturn.cfg = s.cfg := by
  simp [State.interruptReturn]

/-! ### Phases A and B keep the run state, the parameters and the canonical form -/

@[simp] theorem State.beginCycle_run (s : State) : s.beginCycle.run = s.run := by
  unfold State.beginCycle
  rcases s.latchRequest.interruptCheck_cases with ⟨i, -, h⟩ | ⟨-, h⟩ <;> simp [h]

@[simp] theorem State.beginCycle_diag (s : State) : s.beginCycle.diag = s.diag := by
  unfold State.beginCycle
  rcases s.latchRequest.interruptCheck_cases with ⟨i, -, h⟩ | ⟨-, h⟩ <;> simp [h]

@[simp] theorem State.beginCycle_cfg (s : State) : s.beginCycle.cfg = s.cfg := by
  unfold State.beginCycle
  rcases s.latchRequest.interruptCheck_cases with ⟨i, -, h⟩ | ⟨-, h⟩ <;> simp [h]

@[simp] theorem State.beginCycle_out (s : State) : s.beginCycle.out = s.out := by
  unfold State.beginCycle
  rcases s.latchRequest.interruptCheck_cases with ⟨i, -, h⟩ | ⟨-, h⟩ <;> simp [h]

@[simp] theorem State.beginCycle_wf {s : State} (h : s.mem.wf = true) : s.beginCycle.mem.wf = true := by
  unfold State.beginCycle
  rcases s.latchRequest.interruptCheck_cases with ⟨i, -, e⟩ | ⟨-, e⟩ <;> simp [e, h]

/-! ### `trunc8` and the ALU operations (R100) -/

theorem trunc8_toNat (v : Int) : (trunc8 v).toNat = (v % 256).toNat := by
  simp [trunc8, BitVec.toNat_ofInt]

@[simp] theorem trunc8_natCast_toNat (n : Nat) : (trunc8 (n : Int)).toNat = n % 256 := by
  rw [trunc8_toNat]; omega

@[simp] theorem aluAdd_toNat (p q : Nat) : (aluAdd p q).toNat = (p + q) % 256 := by
  rw [aluAdd, trunc8_toNat]; omega

@[simp] theorem aluDec_toNat (p : Nat) : (aluDec p).toNat = (((p : Int) - 1) % 256).toNat := trunc8_toNat _

@[simp] theorem aluMul_toNat (p q : Nat) : (aluMul p q).toNat = p * q % 256 := by
  rw [aluMul, ← Nat.cast_mul, trunc8_natCast_toNat]

@[simp] theorem aluMod_toNat (p q : Nat) : (aluMod p q).toNat = p % q % 256 := trunc8_natCast_toNat _

@[simp] theorem aluShl_toNat (p q : Nat) : (aluShl p q).toNat = p * 2 ^ q % 256 := trunc8_natCast_toNat _

@[simp] theorem aluShr_toNat (p q : Nat) : (aluShr p q).toNat = p / 2 ^ q % 256 := trunc8_natCast_toNat _

/-- NOT of a byte is its bitwise complement (R106). -/
theorem aluNot_eq (p : Byte) : aluNot p.toNat = ~~~p := by
  revert p; decide

/-- The formula of R105 is the exclusive or. -/
theorem aluXor_eq (p q : Byte) : aluXor p q = p ^^^ q := by
  ext k hk
  simp only [aluXor, BitVec.getElem_and, BitVec.getElem_not, BitVec.getElem_or, BitVec.getElem_xor]
  cases p[k] <;> cases q[k] <;> rfl

/-! ### The flag computation (R113) -/

/-- CMP's three flags are the three unsigned comparisons, and bits 7:3 are kept. -/
theorem cmpFlags_bits (fl p q : Byte) :
    flagE (cmpFlags fl p q) = decide (p.toNat = q.toNat) ∧
    flagG (cmpFlags fl p q) = decide (p.toNat > q.toNat) ∧
    flagL (cmpFlags fl p q) = decide (p.toNat < q.toNat) ∧
    ∀ k, 3 ≤ k → (cmpFlags fl p q).getLsbD k = fl.getLsbD k := by
  have bits : ∀ (e g l : Bool) (fl : Byte), let v := (fl &&& 0xF8#8) ||| (flagBit l <<< 2) ||| (flagBit g <<< 1) ||| flagBit e
      flagE v = e ∧ flagG v = g ∧ flagL v = l ∧ v >>> 3 = fl >>> 3 := by decide
  obtain ⟨h1, h2, h3, h4⟩ := bits (decide (p.toNat = q.toNat)) (decide (p.toNat > q.toNat)) (decide (p.toNat < q.toNat)) fl
  refine ⟨h1, h2, h3, fun k hk => ?_⟩
  have h5 : (cmpFlags fl p q >>> 3).getLsbD (k - 3) = (fl >>> 3).getLsbD (k - 3) := congrArg (·.getLsbD (k - 3)) h4
  rwa [BitVec.getLsbD_ushiftRight, BitVec.getLsbD_ushiftRight, Nat.add_sub_cancel' hk] at h5

/-! ### The pending check (R169, R172) -/

/-- The interrupt found is the least one pending. -/
theorem lowestPending_some {m : Byte} {i : Fin 8} :
    lowestPending m = some i ↔ m.getLsbD i.val = true ∧ ∀ j : Fin 8, j < i → m.getLsbD j.val = false := by
  revert i; revert m; decide

/-- None is found exactly when nothing is pending. -/
theorem lowestPending_none {m : Byte} : lowestPending m = none ↔ m = 0#8 := by
  revert m; decide

/-! ### Reset -/

/-- What `resetWith` can answer with a next state (R23, R192). -/
theorem resetWith_next {c : Config} {image : List Byte} {u : State} (h : resetWith c image = .next u) :
    u = State.resetState c image ∧ c.wellFormed = true ∧ image.length ≤ 256 := by
  unfold resetWith at h
  split at h
  · simp at h
  · split at h
    · simp at h
    · simp_all [imageWellFormed, memSize]

/-! ### The step -/

/-- Everything one step can do (R70, R79): a halted core stays, a running core executes the instruction its fetch gives or
halts on bytes that are none. -/
theorem step_cases {s t : State} (h : step s = .next t) :
    ((∃ c, s.run = .halted c) ∧ t = s) ∨
    (s.run = .running ∧ ∃ i, s.beginCycle.fetchDecode = .ok i ∧ exec i s.beginCycle = .next t) ∨
    (s.run = .running ∧ ∃ r, s.beginCycle.fetchDecode = .error r ∧ t = s.beginCycle.fatal (.decode r)) := by
  unfold step at h
  cases hr : s.run with
  | halted c =>
    simp only [hr, Host.Outcome.next.injEq] at h
    exact .inl ⟨⟨c, rfl⟩, h.symm⟩
  | running =>
    simp only [hr] at h
    cases hf : s.beginCycle.fetchDecode with
    | ok i => exact .inr (.inl ⟨rfl, i, rfl, by simpa [hf] using h⟩)
    | error r => exact .inr (.inr ⟨rfl, r, rfl, by simpa [hf] using h.symm⟩)

end Sys2Proof.Machine
end

