-- ==== Sys2Proof/Laws/Decode.lean ====
section
/-! SUPPORT. Small lemmas of the decoder and encoder, and what `withFetchWord` makes the next step fetch. -/

namespace Sys2Proof

/-- A register's operand byte names that register, under either policy (R53). -/
@[simp] theorem decodeReg_regByte (c : Config) (r : Reg) : decodeReg c (regByte r) = some r := by
  have hr : (regByte r).toNat = r.val := by revert r; decide
  unfold decodeReg
  cases c.regIdxPolicy
  · simp [hr]
  · simp [hr, Nat.mod_eq_of_lt r.isLt]

/-- A legal `OPC_ADDI` is none of the fixed opcodes (R5). -/
theorem opcAddi_not_fixed {c : Config} (h : c.wellFormed = true) : c.opcAddi ∉ fixedOpcodes := by
  simp only [Config.wellFormed, Bool.and_eq_true, Config.addiIsDistinct, Bool.not_eq_true'] at h
  simpa [List.contains_iff_mem] using h.2

/-- The default parameters are legal (R5). -/
theorem default_wellFormed : Config.default.wellFormed = true := by decide

/-- Where phase F fails, the byte is above 7 and the policy is `fault` (R76). -/
theorem decodeReg_none {c : Config} {b : Byte} : decodeReg c b = none ↔ c.regIdxPolicy = .fault ∧ 7 < b.toNat := by
  unfold decodeReg
  cases c.regIdxPolicy <;> simp
  omega

/-- A byte that phase F accepts under `fault` is the operand byte of the register it names (R53). -/
theorem regByte_of_decodeReg {c : Config} {b : Byte} {r : Reg} (h : decodeReg c b = some r)
    (hf : c.regIdxPolicy = .fault) : b = regByte r := by
  unfold decodeReg at h
  simp only [hf, Option.dite_none_right_eq_some, Option.some.injEq] at h
  obtain ⟨_, rfl⟩ := h
  simp [regByte]

/-- Phase E fails exactly on the bytes that are none of the 29 opcodes (R75). -/
theorem lookupOpcode_none (c : Config) (ir : Byte) : lookupOpcode c ir = none ↔ ir ∉ fixedOpcodes ++ [c.opcAddi] := by
  unfold lookupOpcode
  rw [List.lookup_eq_none_iff]
  simp [opcodeTable, fixedOpcodes, fixedOpcodesOf]
  tauto

/-- A row that phase E finds stands in the table. -/
theorem lookupOpcode_mem {c : Config} {ir : Byte} {sh : Shape} (h : lookupOpcode c ir = some sh) :
    (ir, sh) ∈ opcodeTable c := by
  obtain ⟨_, _, h, -⟩ := List.lookup_eq_some_iff.1 h
  simp [h]

namespace Machine

/-- The three bytes `storeWord` stores are read back. -/
theorem State.storeWord_memRead {u : State} (h : u.mem.wf = true) (v : Nat) :
    (u.storeWord v).memRead u.pc = wordByte v 0 ∧ (u.storeWord v).memRead (u.pc + 1#8) = wordByte v 1 ∧
    (u.storeWord v).memRead (u.pc + 2#8) = wordByte v 2 := by
  have h12 : u.pc ≠ u.pc + 1#8 ∧ u.pc ≠ u.pc + 2#8 ∧ u.pc + 1#8 ≠ u.pc + 2#8 := by
    refine ⟨?_, ?_, ?_⟩ <;> bv_omega
  have hw1 := State.memWrite_wf h u.pc (wordByte v 0)
  have hw2 := State.memWrite_wf hw1 (u.pc + 1#8) (wordByte v 1)
  simp [State.storeWord, State.memRead_memWrite h, State.memRead_memWrite hw1, State.memRead_memWrite hw2, h12]

/-- Neither phase A nor the stored bytes bear on which interrupt is taken, once `readyToFetch` has run. -/
theorem State.placeWord_takes_none (s : State) (nbits w : Nat) :
    (s.placeWord nbits w).latchRequest.takenInterrupt = none := by
  have same : ∀ u : State, (u.storeWord (w % 2 ^ nbits)).latchRequest.takenInterrupt = u.latchRequest.takenInterrupt := by
    intro u
    have hreq : (u.storeWord (w % 2 ^ nbits)).irq0Req = u.irq0Req := rfl
    have hreg : ∀ r, (u.storeWord (w % 2 ^ nbits)).reg r = u.reg r := fun _ => rfl
    have hie : (u.storeWord (w % 2 ^ nbits)).ie = u.ie := rfl
    simp [State.takenInterrupt, State.latchRequest_reg, hreq, hreg, hie]
  rw [State.placeWord, same]
  unfold State.readyToFetch
  cases h : s.restart.latchRequest.takenInterrupt with
  | some i => simp only [State.takenInterrupt, State.latchRequest_ie, State.setIe_ie]; rfl
  | none => exact h

/-- The step after `withFetchWord` fetches exactly that word. -/
theorem withFetchWord_fetches {s : State} (h : s.mem.wf = true) (nbits w : Nat) :
    (s.withFetchWord nbits w).run = .running ∧
    (s.withFetchWord nbits w).beginCycle.fetchDecode =
      decodeInstr s.cfg (wordByte (w % 2 ^ nbits) 0) (wordByte (w % 2 ^ nbits) 1) (wordByte (w % 2 ^ nbits) 2) := by
  obtain ⟨hrun, hpc, hmem, hcfg⟩ : s.readyToFetch.run = .running ∧ s.readyToFetch.pc = s.pc ∧
      s.readyToFetch.mem = s.mem ∧ s.readyToFetch.cfg = s.cfg := by
    unfold State.readyToFetch; split <;> simp
  have hwf : s.readyToFetch.mem.wf = true := by rw [hmem]; exact h
  have hb : (s.placeWord nbits w).beginCycle = (s.placeWord nbits w).latchRequest := by
    simp only [State.beginCycle, State.interruptCheck, State.placeWord_takes_none]
  refine ⟨by simpa [State.withFetchWord, State.placeWord, State.storeWord] using hrun, ?_⟩
  have hst : ∀ v, (s.readyToFetch.storeWord v).pc = s.pc ∧ (s.readyToFetch.storeWord v).cfg = s.cfg := fun v => ⟨hpc, hcfg⟩
  obtain ⟨h0, h1, h2⟩ := State.storeWord_memRead hwf (w % 2 ^ nbits)
  rw [hpc] at h0 h1 h2
  rw [State.withFetchWord, hb]
  simp only [State.fetchDecode, State.latchRequest_pc, State.latchRequest_cfg, State.latchRequest_memRead, State.placeWord,
    hst, h0, h1, h2]

end Machine

end Sys2Proof
end

