-- ==== Sys2Proof/Laws/Frames.lean ====
section
/-! SUPPORT. What a meaning of a common shape does: it writes one register and advances, or it only sets `pc`. -/

namespace Sys2Proof.Machine

/-- A meaning that writes one register and leaves `pc` to the dispatcher. -/
theorem WritesReg.of_setReg {i : Instr} {s : State} {a : Reg} {v : Byte} {ir : Byte} {len : Nat} {P : Byte → Prop}
    (he : exec i s = .next ((s.setReg a v).advance ir)) (hir : setsPc ir = false) (hlen : nops ir + 1 = len) (hP : P v) :
    WritesReg i s a len P := by
  refine ⟨_, he, by simpa using hP, fun r hr => ?_, by simp [State.advance_pc, hir, hlen], by simp, by simp, fun x => by simp,
    by simp, by simp [KeepsRun]⟩
  have : r ≠ a := by simpa using hr
  simp [this]

/-- A meaning that sets `pc` and whose opcode keeps the dispatcher from advancing it. -/
theorem OnlyJumps.of_setPc {i : Instr} {s : State} {p : Addr} {ir : Byte}
    (he : exec i s = .next ((s.setPc p).advance ir)) (hir : setsPc ir = true) : OnlyJumps i s p := by
  rw [State.advance_of_setsPc hir] at he
  exact ⟨_, he, rfl, fun _ _ => rfl, rfl, rfl, fun _ => rfl, rfl, rfl, rfl, rfl, rfl, rfl⟩

/-- Raising a fatal error does what `HaltedBy` says (R161). -/
theorem HaltedBy.of_fatal (f : Fatal) (s : State) : HaltedBy f s (s.fatal f) :=
  ⟨rfl, rfl, fun _ _ => rfl, rfl, rfl, rfl, fun _ => rfl, rfl, rfl, rfl, rfl⟩

end Sys2Proof.Machine
end

