-- ==== Sys2Proof/Laws/PerInstr.lean ====
section
/-! SUPPORT. Statements made of every instruction as syntax, one lemma per constructor. -/

namespace Sys2Proof.Laws.EncodedLength

/-- An instruction's encoding is `nops + 1` bytes long, `nops` read from its opcode byte (R50, R59). -/
def Statement (i : Instr) : Prop := ∀ c : Config, c.wellFormed = true → (encode c i).length = nops (opcode c i) + 1

theorem nop : Statement (.nop) := fun _ _ => by simp [encode, operandBytes, opcode, nops]
theorem hlt : Statement (.hlt) := fun _ _ => by simp [encode, operandBytes, opcode, nops]
theorem ret : Statement (.ret) := fun _ _ => by simp [encode, operandBytes, opcode, nops]
theorem iret : Statement (.iret) := fun _ _ => by simp [encode, operandBytes, opcode, nops]
theorem push (a : Reg) : Statement (.push a) := fun _ _ => by simp [encode, operandBytes, opcode, nops]
theorem pop (a : Reg) : Statement (.pop a) := fun _ _ => by simp [encode, operandBytes, opcode, nops]
theorem prn (a : Reg) : Statement (.prn a) := fun _ _ => by simp [encode, operandBytes, opcode, nops]
theorem pra (a : Reg) : Statement (.pra a) := fun _ _ => by simp [encode, operandBytes, opcode, nops]
theorem call (a : Reg) : Statement (.call a) := fun _ _ => by simp [encode, operandBytes, opcode, nops]
theorem int (a : Reg) : Statement (.int a) := fun _ _ => by simp [encode, operandBytes, opcode, nops]
theorem jmp (a : Reg) : Statement (.jmp a) := fun _ _ => by simp [encode, operandBytes, opcode, nops]
theorem jeq (a : Reg) : Statement (.jeq a) := fun _ _ => by simp [encode, operandBytes, opcode, nops]
theorem jne (a : Reg) : Statement (.jne a) := fun _ _ => by simp [encode, operandBytes, opcode, nops]
theorem inc (a : Reg) : Statement (.inc a) := fun _ _ => by simp [encode, operandBytes, opcode, nops]
theorem dec (a : Reg) : Statement (.dec a) := fun _ _ => by simp [encode, operandBytes, opcode, nops]
theorem not (a : Reg) : Statement (.not a) := fun _ _ => by simp [encode, operandBytes, opcode, nops]
theorem ldi (a : Reg) (imm : Byte) : Statement (.ldi a imm) := fun _ _ => by simp [encode, operandBytes, opcode, nops]
theorem ld (a b : Reg) : Statement (.ld a b) := fun _ _ => by simp [encode, operandBytes, opcode, nops]
theorem st (a b : Reg) : Statement (.st a b) := fun _ _ => by simp [encode, operandBytes, opcode, nops]
theorem add (a b : Reg) : Statement (.add a b) := fun _ _ => by simp [encode, operandBytes, opcode, nops]
theorem mul (a b : Reg) : Statement (.mul a b) := fun _ _ => by simp [encode, operandBytes, opcode, nops]
theorem mod (a b : Reg) : Statement (.mod a b) := fun _ _ => by simp [encode, operandBytes, opcode, nops]
theorem addi (a : Reg) (imm : Byte) : Statement (.addi a imm) := fun c h => by
  simp [encode, operandBytes, opcode, Machine.nops_opcAddi h]
theorem cmp (a b : Reg) : Statement (.cmp a b) := fun _ _ => by simp [encode, operandBytes, opcode, nops]
theorem and (a b : Reg) : Statement (.and a b) := fun _ _ => by simp [encode, operandBytes, opcode, nops]
theorem or (a b : Reg) : Statement (.or a b) := fun _ _ => by simp [encode, operandBytes, opcode, nops]
theorem xor (a b : Reg) : Statement (.xor a b) := fun _ _ => by simp [encode, operandBytes, opcode, nops]
theorem shl (a b : Reg) : Statement (.shl a b) := fun _ _ => by simp [encode, operandBytes, opcode, nops]
theorem shr (a b : Reg) : Statement (.shr a b) := fun _ _ => by simp [encode, operandBytes, opcode, nops]

end Sys2Proof.Laws.EncodedLength
end

