-- ==== Sys2Proof/Tests/Slice0.lean ====
section
/-! SUPPORT. The model's own tests. Expected results come from the spec: the encodings of 30_encoding.md R55, the vectors of
95_test_vectors.md Part B, and the rules named. The last part shows, for every obligation with hypotheses, a case that meets
them. -/

namespace Sys2Proof.Tests

open Sys2Proof.Machine

/-! ### Helpers -/

/-- Bytes stored from an address on. -/
def place (a : Addr) (bytes : List Byte) (s : State) : State :=
  match bytes with
  | [] => s
  | v :: rest => place (a + 1#8) rest (s.memWrite a v)

/-- Registers set. -/
def withRegs (regs : List (Reg × Byte)) (s : State) : State := regs.foldl (fun s p => s.setReg p.1 p.2) s

/-- The values of `irq0_req` in the next cycles. -/
def withInputs (l : List Bool) (s : State) : State := { s with irq0 := l }

/-- Reset, then `pc`, the bytes at `pc`, some registers, and no request in the next cycle: a row of Part B. -/
def start (pc : Addr) (bytes : List Byte) (regs : List (Reg × Byte) := []) : State :=
  withInputs [false] (withRegs regs (place pc bytes (State.reset.setPc pc)))

/-- A result is exactly the next state `t`. -/
def isExactly (r : Result) (t : State) : Bool :=
  match r with
  | .next u => u == t
  | .fault _ => false
  | .refused _ => false

/-- A result is the next state `t` with the input of one cycle used up. -/
def isNext (r : Result) (t : State) : Bool := isExactly r t.dropInput

/-- The state of a core whose `ie` is on. -/
def enabled (s : State) : State := s.setIe true

/-- Another value of one parameter. -/
def withCfg (c : Config) (s : State) : State := { s with cfg := c }

/-! ### Decoding: the words of R55, byte by byte -/

theorem test_decode_nop : decode .default [0x00#8] = .instr .nop [] := by decide
theorem test_decode_hlt : decode .default [0x01#8] = .instr .hlt [] := by decide
theorem test_decode_ret : decode .default [0x11#8] = .instr .ret [] := by decide
theorem test_decode_iret : decode .default [0x13#8] = .instr .iret [] := by decide
theorem test_decode_push : decode .default [0x45#8, 0x01#8] = .instr (.push 1) [] := by decide
theorem test_decode_pop : decode .default [0x46#8, 0x02#8] = .instr (.pop 2) [] := by decide
theorem test_decode_prn : decode .default [0x47#8, 0x03#8] = .instr (.prn 3) [] := by decide
theorem test_decode_pra : decode .default [0x48#8, 0x04#8] = .instr (.pra 4) [] := by decide
theorem test_decode_call : decode .default [0x50#8, 0x05#8] = .instr (.call 5) [] := by decide
theorem test_decode_int : decode .default [0x52#8, 0x06#8] = .instr (.int 6) [] := by decide
theorem test_decode_jmp : decode .default [0x54#8, 0x07#8] = .instr (.jmp 7) [] := by decide
theorem test_decode_jeq : decode .default [0x55#8, 0x01#8] = .instr (.jeq 1) [] := by decide
theorem test_decode_jne : decode .default [0x56#8, 0x02#8] = .instr (.jne 2) [] := by decide
theorem test_decode_inc : decode .default [0x65#8, 0x03#8] = .instr (.inc 3) [] := by decide
theorem test_decode_dec : decode .default [0x66#8, 0x04#8] = .instr (.dec 4) [] := by decide
theorem test_decode_not : decode .default [0x69#8, 0x05#8] = .instr (.not 5) [] := by decide
theorem test_decode_ldi : decode .default [0x82#8, 0x06#8, 0xFE#8] = .instr (.ldi 6 0xFE#8) [] := by decide
theorem test_decode_ld : decode .default [0x83#8, 0x07#8, 0x01#8] = .instr (.ld 7 1) [] := by decide
theorem test_decode_st : decode .default [0x84#8, 0x01#8, 0x02#8] = .instr (.st 1 2) [] := by decide
theorem test_decode_add : decode .default [0xA0#8, 0x02#8, 0x03#8] = .instr (.add 2 3) [] := by decide
theorem test_decode_mul : decode .default [0xA2#8, 0x03#8, 0x04#8] = .instr (.mul 3 4) [] := by decide
theorem test_decode_mod : decode .default [0xA4#8, 0x04#8, 0x05#8] = .instr (.mod 4 5) [] := by decide
theorem test_decode_addi : decode .default [0xA5#8, 0x05#8, 0x80#8] = .instr (.addi 5 0x80#8) [] := by decide
theorem test_decode_cmp : decode .default [0xA7#8, 0x06#8, 0x07#8] = .instr (.cmp 6 7) [] := by decide
theorem test_decode_and : decode .default [0xA8#8, 0x07#8, 0x01#8] = .instr (.and 7 1) [] := by decide
theorem test_decode_or : decode .default [0xAA#8, 0x01#8, 0x03#8] = .instr (.or 1 3) [] := by decide
theorem test_decode_xor : decode .default [0xAB#8, 0x02#8, 0x04#8] = .instr (.xor 2 4) [] := by decide
theorem test_decode_shl : decode .default [0xAC#8, 0x03#8, 0x05#8] = .instr (.shl 3 5) [] := by decide
theorem test_decode_shr : decode .default [0xAD#8, 0x04#8, 0x06#8] = .instr (.shr 4 6) [] := by decide

/-- R56: unrecognized values, among them the neighbours of ADD and the value 0xFF (vectors B6). -/
theorem test_decode_unrecognized :
    decode .default [0xA1#8, 0x00#8, 0x01#8] = .rejected (.unrecognizedOpcode 0xA1#8) ∧
    decode .default [0x57#8, 0x00#8] = .rejected (.unrecognizedOpcode 0x57#8) ∧
    decode .default [0x02#8] = .rejected (.unrecognizedOpcode 0x02#8) ∧
    decode .default [0xFF#8] = .rejected (.unrecognizedOpcode 0xFF#8) := by decide

/-- The tail of the bytes, and a sequence that ends too early. -/
theorem test_decode_stream :
    decode .default [0x82#8, 0x00#8, 0x08#8, 0x01#8] = .instr (.ldi 0 0x08#8) [0x01#8] ∧
    decode .default [0x82#8, 0x00#8] = .truncated ∧ decode .default [] = .truncated := by decide

/-- The numbering of spec/opcode_table.json: the opcode byte is the lowest. -/
theorem test_table_word :
    decodeTableWord 24 0x0100A0 = some (.add 0 1) ∧ decodeTableWord 16 0x0346 = some (.pop 3) ∧
    decodeTableWord 8 0x00 = some .nop ∧ decodeTableWord 8 0xA1 = none := by decide

/-- The next step after `withFetchWord` runs the word: `A2 00 01` with R0 = 8, R1 = 9 (vector MUL of B1). -/
theorem test_with_fetch_word :
    isNext (step ((start 0x00 [] [(0, 0x08), (1, 0x09)]).withFetchWord 24 0x0100A2))
      (start 0x03 [] [(0, 0x48), (1, 0x09)] |> place 0x00 [0xA2, 0x00, 0x01]) = true := by decide

/-- The very next step from reset runs the placed word, whatever the input of that cycle is. -/
theorem test_fetch_word_from_reset :
    (match step (State.reset.withFetchWord 24 0x0100A2) with
      | .next t => t.pc == 0x03#8
      | .fault _ => false
      | .refused _ => false) = true := by decide

/-! ### WellFormed refuses: one ill-formed term for each check (R5, R192, R53, R56) -/

theorem test_refuses_addi_with_one_operand :
    { Config.default with opcAddi := 0x60#8 }.addiHasTwoOperands = false ∧
    { Config.default with opcAddi := 0x60#8 }.wellFormed = false := by decide

theorem test_refuses_addi_that_sets_pc :
    { Config.default with opcAddi := 0xB0#8 }.addiLeavesPcToDispatcher = false ∧
    { Config.default with opcAddi := 0xB0#8 }.wellFormed = false := by decide

theorem test_refuses_addi_on_another_opcode :
    { Config.default with opcAddi := 0xA8#8 }.addiIsDistinct = false ∧
    { Config.default with opcAddi := 0xA8#8 }.wellFormed = false := by decide

theorem test_refuses_long_image :
    imageWellFormed (List.replicate 257 0#8) = false ∧ imageWellFormed (List.replicate 256 0#8) = true := by
  simp only [imageWellFormed, List.length_replicate]
  decide

theorem test_refuses_unrecognized_opcode : bytesWellFormed .default 0xA1#8 0x00#8 0x01#8 = false := by decide

theorem test_refuses_register_eight :
    bytesWellFormed .default 0x65#8 0x08#8 0x00#8 = false ∧ bytesWellFormed .default 0x65#8 0x07#8 0x08#8 = true ∧
    bytesWellFormed .default 0x82#8 0x08#8 0x01#8 = false ∧ bytesWellFormed .default 0x82#8 0x00#8 0x09#8 = true ∧
    bytesWellFormed .default 0xA0#8 0x08#8 0x00#8 = false ∧ bytesWellFormed .default 0xA0#8 0x00#8 0x09#8 = false := by decide

/-! ### ALU (vectors B1) -/

theorem test_add_pc_wraps :
    isNext (step (start 0xFE [0xA0, 0x00, 0x01] [(0, 0x01), (1, 0x02)]))
      ((start 0xFE [0xA0, 0x00, 0x01] [(0, 0x03), (1, 0x02)]).setPc 0x01) = true := by decide

theorem test_add_same_register :
    isNext (step (start 0x00 [0xA0, 0x02, 0x02] [(2, 0x45)])) ((start 0x00 [0xA0, 0x02, 0x02] [(2, 0x8A)]).setPc 0x03) = true := by
  decide

theorem test_addi_immediate_above_seven :
    isNext (step (start 0x00 [0xA5, 0x00, 0x80] [(0, 0x80)])) ((start 0x00 [0xA5, 0x00, 0x80] [(0, 0x00)]).setPc 0x03) = true := by
  decide

theorem test_inc_wraps :
    isNext (step (start 0x00 [0x65, 0x03] [(3, 0xFF)])) ((start 0x00 [0x65, 0x03] [(3, 0x00)]).setPc 0x02) = true := by decide

theorem test_dec_wraps :
    isNext (step (start 0x00 [0x66, 0x01] [(1, 0x00)])) ((start 0x00 [0x66, 0x01] [(1, 0xFF)]).setPc 0x02) = true := by decide

theorem test_mul_max :
    isNext (step (start 0x00 [0xA2, 0x00, 0x01] [(0, 0xFF), (1, 0xFF)]))
      ((start 0x00 [0xA2, 0x00, 0x01] [(0, 0x01), (1, 0xFF)]).setPc 0x03) = true := by decide

theorem test_mod :
    isNext (step (start 0x00 [0xA4, 0x00, 0x01] [(0, 0x0A), (1, 0x03)]))
      ((start 0x00 [0xA4, 0x00, 0x01] [(0, 0x01), (1, 0x03)]).setPc 0x03) = true := by decide

theorem test_mod_by_zero :
    isNext (step (start 0x06 [0xA4, 0x00, 0x01] [(0, 0x0A), (1, 0x00)]))
      ((start 0x06 [0xA4, 0x00, 0x01] [(0, 0x0A), (1, 0x00)]).fatal .divisionByZero) = true := by decide

theorem test_and :
    isNext (step (start 0x00 [0xA8, 0x00, 0x01] [(0, 0xCC), (1, 0xAA)]))
      ((start 0x00 [0xA8, 0x00, 0x01] [(0, 0x88), (1, 0xAA)]).setPc 0x03) = true := by decide

theorem test_or :
    isNext (step (start 0x00 [0xAA, 0x00, 0x01] [(0, 0xCC), (1, 0xAA)]))
      ((start 0x00 [0xAA, 0x00, 0x01] [(0, 0xEE), (1, 0xAA)]).setPc 0x03) = true := by decide

theorem test_xor :
    isNext (step (start 0x00 [0xAB, 0x00, 0x01] [(0, 0xCC), (1, 0xAA)]))
      ((start 0x00 [0xAB, 0x00, 0x01] [(0, 0x66), (1, 0xAA)]).setPc 0x03) = true := by decide

theorem test_not :
    isNext (step (start 0x00 [0x69, 0x00] [(0, 0x0F)])) ((start 0x00 [0x69, 0x00] [(0, 0xF0)]).setPc 0x02) = true := by decide

theorem test_shl_by_width :
    isNext (step (start 0x00 [0xAC, 0x00, 0x01] [(0, 0xFF), (1, 0x08)]))
      ((start 0x00 [0xAC, 0x00, 0x01] [(0, 0x00), (1, 0x08)]).setPc 0x03) = true := by decide

theorem test_shl_same_register :
    isNext (step (start 0x00 [0xAC, 0x02, 0x02] [(2, 0x06)])) ((start 0x00 [0xAC, 0x02, 0x02] [(2, 0x80)]).setPc 0x03) = true := by
  decide

theorem test_shr :
    isNext (step (start 0x00 [0xAD, 0x00, 0x01] [(0, 0x81), (1, 0x01)]))
      ((start 0x00 [0xAD, 0x00, 0x01] [(0, 0x40), (1, 0x01)]).setPc 0x03) = true := by decide

theorem test_shr_by_width :
    isNext (step (start 0x00 [0xAD, 0x00, 0x01] [(0, 0xFF), (1, 0x08)]))
      ((start 0x00 [0xAD, 0x00, 0x01] [(0, 0x00), (1, 0x08)]).setPc 0x03) = true := by decide

theorem test_cmp_is_unsigned :
    isNext (step (start 0x00 [0xA7, 0x00, 0x01] [(0, 0xFF), (1, 0x01)]))
      (((start 0x00 [0xA7, 0x00, 0x01] [(0, 0xFF), (1, 0x01)]).setFl 0x02).setPc 0x03) = true := by decide

theorem test_cmp_keeps_high_bits :
    isNext (step ((start 0x00 [0xA7, 0x00, 0x01] [(0, 0x01), (1, 0x02)]).setFl 0xFB))
      (((start 0x00 [0xA7, 0x00, 0x01] [(0, 0x01), (1, 0x02)]).setFl 0xFC).setPc 0x03) = true := by decide

/-! ### Control flow (vectors B2) -/

theorem test_jmp :
    isNext (step (start 0x10 [0x54, 0x02] [(2, 0x40)])) ((start 0x10 [0x54, 0x02] [(2, 0x40)]).setPc 0x40) = true := by decide

theorem test_jeq_reads_only_bit_zero :
    isNext (step ((start 0x20 [0x55, 0x03] [(3, 0x30)]).setFl 0xFF)) (((start 0x20 [0x55, 0x03] [(3, 0x30)]).setFl 0xFF).setPc 0x30)
      = true := by decide

theorem test_jeq_not_taken_wraps :
    isNext (step ((start 0xFF [0x55, 0x03] [(3, 0x30)]).setFl 0x02)) (((start 0xFF [0x55, 0x03] [(3, 0x30)]).setFl 0x02).setPc 0x01)
      = true := by decide

theorem test_jne_taken :
    isNext (step ((start 0x20 [0x56, 0x03] [(3, 0x30)]).setFl 0x04)) (((start 0x20 [0x56, 0x03] [(3, 0x30)]).setFl 0x04).setPc 0x30)
      = true := by decide

theorem test_jne_not_taken :
    isNext (step ((start 0x20 [0x56, 0x03] [(3, 0x30)]).setFl 0x01)) (((start 0x20 [0x56, 0x03] [(3, 0x30)]).setFl 0x01).setPc 0x22)
      = true := by decide

theorem test_call :
    isNext (step (start 0x06 [0x50, 0x01] [(1, 0x0B)]))
      ((place 0xF3 [0x08] (start 0x06 [0x50, 0x01] [(1, 0x0B), (7, 0xF3)])).setPc 0x0B) = true := by decide

theorem test_call_through_sp :
    isNext (step (start 0x06 [0x50, 0x07])) ((place 0xF3 [0x08] (start 0x06 [0x50, 0x07] [(7, 0xF3)])).setPc 0xF3) = true := by decide

theorem test_ret :
    isNext (step (place 0xF3 [0x08] (start 0x0E [0x11] [(7, 0xF3)]))) ((place 0xF3 [0x08] (start 0x0E [0x11] [(7, 0xF3)])).setPc 0x08)
      = true := by decide

theorem test_ret_pops :
    isNext (step (withCfg { Config.default with retPops := true } (place 0xF3 [0x08] (start 0x0E [0x11] [(7, 0xF3)]))))
      (withCfg { Config.default with retPops := true } ((place 0xF3 [0x08] (start 0x0E [0x11] [(7, 0xF4)])).setPc 0x08)) = true := by
  decide

/-! ### Stack (vectors B3) -/

theorem test_push_wraps :
    isNext (step (start 0x00 [0x45, 0x00] [(0, 0x2A), (7, 0x00)]))
      ((place 0xFF [0x2A] (start 0x00 [0x45, 0x00] [(0, 0x2A), (7, 0xFF)])).setPc 0x02) = true := by decide

theorem test_push_sp :
    isNext (step (start 0x00 [0x45, 0x07])) ((place 0xF3 [0xF3] (start 0x00 [0x45, 0x07] [(7, 0xF3)])).setPc 0x02) = true := by decide

theorem test_pop_sp :
    isNext (step (place 0xF0 [0x80] (start 0x00 [0x46, 0x07] [(7, 0xF0)])))
      ((place 0xF0 [0x80] (start 0x00 [0x46, 0x07] [(7, 0x81)])).setPc 0x02) = true := by decide

theorem test_pop_on_empty_stack :
    isNext (step (start 0x00 [0x46, 0x00])) ((start 0x00 [0x46, 0x00]).fatal .stackUnderflow) = true := by decide

/-! ### Data movement, output, system (vectors B4) -/

theorem test_ld :
    isNext (step (start 0x00 [0x83, 0x00, 0x01] [(0, 0x01), (1, 0x7F)]))
      ((start 0x00 [0x83, 0x00, 0x01] [(0, 0x7F), (1, 0x7F)]).setPc 0x03) = true := by decide

theorem test_ldi_into_sp :
    isNext (step (start 0x00 [0x82, 0x07, 0xC0])) ((start 0x00 [0x82, 0x07, 0xC0] [(7, 0xC0)]).setPc 0x03) = true := by decide

theorem test_st_to_vector_table :
    isNext (step (start 0x00 [0x84, 0x01, 0x00] [(1, 0xF8), (0, 0x28)]))
      ((place 0xF8 [0x28] (start 0x00 [0x84, 0x01, 0x00] [(1, 0xF8), (0, 0x28)])).setPc 0x03) = true := by decide

theorem test_st_over_its_own_opcode :
    isNext (step (start 0x00 [0x84, 0x01, 0x00] [(1, 0x00), (0, 0x01)]))
      ((start 0x00 [0x01, 0x01, 0x00] [(1, 0x00), (0, 0x01)]).setPc 0x03) = true := by decide

theorem test_prn :
    isNext (step (start 0x00 [0x47, 0x00] [(0, 0x48)])) (((start 0x00 [0x47, 0x00] [(0, 0x48)]).emit (.prn 0x48)).setPc 0x02) = true := by
  decide

/-- "255\n" (B4). -/
theorem test_prn_text : (OutEvent.prn 0xFF#8).render = ['2', '5', '5', '\n'] := by decide

theorem test_pra :
    isNext (step (start 0x00 [0x48, 0x00] [(0, 0x41)])) (((start 0x00 [0x48, 0x00] [(0, 0x41)]).emit (.pra 0x41)).setPc 0x02) = true := by
  decide

/-- "A" (B4). -/
theorem test_pra_text : (OutEvent.pra 0x41#8).render = ['A'] := by decide

theorem test_nop_wraps : isNext (step (start 0xFF [0x00])) ((start 0xFF [0x00]).setPc 0x00) = true := by decide

theorem test_hlt : isNext (step (start 0x0B [0x01])) (start 0x0B [0x01]).halt = true := by decide

/-- What the host sees after `PRN` of 72 and `HLT` (R82, Part A scenario 1). -/
theorem test_observed : (((start 0x0B [0x01]).emit (.prn 0x48)).halt).observed = some (['7', '2', '\n'], 0) := by decide

/-! ### Interrupts (vectors B5 and B7) -/

theorem test_int_hold :
    isNext (step (start 0x10 [0x52, 0x00] [(0, 0x03), (6, 0x01)])) (start 0x10 [0x52, 0x00] [(0, 0x03), (6, 0x09)]) = true := by decide

theorem test_int_above_seven :
    isNext (step (start 0x10 [0x52, 0x00] [(0, 0x08)])) (start 0x10 [0x52, 0x00] [(0, 0x08)]) = true := by decide

theorem test_int_advance2 :
    isNext (step (withCfg { Config.default with intPcPolicy := .advance2 } (start 0x10 [0x52, 0x00] [(0, 0x03), (6, 0x01)])))
      (withCfg { Config.default with intPcPolicy := .advance2 } ((start 0x10 [0x52, 0x00] [(0, 0x03), (6, 0x09)]).setPc 0x12))
      = true := by decide

theorem test_iret_every_slot :
    isNext (step (place 0x80 [0x66, 0x55, 0x44, 0x33, 0x22, 0x11, 0x10, 0xFF, 0x40] (start 0x24 [0x13] [(7, 0x80)])))
      (enabled (((place 0x80 [0x66, 0x55, 0x44, 0x33, 0x22, 0x11, 0x10, 0xFF, 0x40]
        (start 0x24 [0x13] [(0, 0x10), (1, 0x11), (2, 0x22), (3, 0x33), (4, 0x44), (5, 0x55), (6, 0x66), (7, 0x89)])).setFl
        0xFF).setPc 0x40)) = true := by decide

theorem test_entry_of_interrupt_0 :
    isNext (step (enabled (place 0xF8 [0x60] ((start 0x30 []
        [(0, 0x11), (1, 0x22), (2, 0x33), (3, 0x44), (4, 0x55), (5, 0x01), (6, 0x01)]).setFl 0x02))))
      (place 0xEB [0x00, 0x01, 0x55, 0x44, 0x33, 0x22, 0x11, 0x02, 0x30] (place 0xF8 [0x60] ((start 0x61 []
        [(0, 0x11), (1, 0x22), (2, 0x33), (3, 0x44), (4, 0x55), (5, 0x01), (6, 0x00), (7, 0xEB)]).setFl 0x02))) = true := by decide

theorem test_entry_lowest_number_wins :
    isNext (step (enabled (place 0xFA [0x60, 0x70] (start 0x30 [] [(5, 0xFF), (6, 0x0C)]))))
      (place 0xEB [0x08, 0xFF, 0x00, 0x00, 0x00, 0x00, 0x00, 0x00, 0x30]
        (place 0xFA [0x60, 0x70] (start 0x61 [] [(5, 0xFF), (6, 0x08), (7, 0xEB)]))) = true := by decide

theorem test_request_latched_while_disabled :
    isNext (step (withInputs [true, false] (start 0x30 [] [(5, 0x01)]))) (withInputs [true, false] (start 0x31 [] [(5, 0x01), (6, 0x01)]))
      = true := by decide

theorem test_request_latched_and_taken :
    isNext (step (withInputs [true] (enabled (place 0xF8 [0x60] (start 0x30 [] [(5, 0x01)])))))
      (place 0xEB [0x00, 0x01, 0x00, 0x00, 0x00, 0x00, 0x00, 0x00, 0x30] (place 0xF8 [0x60] (start 0x61 [] [(5, 0x01), (7, 0xEB)])))
      = true := by decide

/-- From reset the input is free: cycle 0 takes the free value 0, whatever it is (R22). -/
theorem test_input_is_free_from_reset :
    State.reset.irq0Req = Config.irq0Input 0 ∧ State.reset.dropInput.irq0Req = Config.irq0Input 1 := ⟨rfl, rfl⟩

/-- Without the input there is no request (R22). -/
theorem test_no_request_without_the_input :
    (withInputs [true] (withCfg { Config.default with hasIrq0 := false } State.reset)).irq0Req = false := by decide

theorem test_entry_then_unrecognized :
    isNext (step (enabled (place 0x61 [0xFF] (place 0xF8 [0x61] (start 0x30 [] [(5, 0x01), (6, 0x01)])))))
      ((place 0xEB [0x00, 0x01, 0x00, 0x00, 0x00, 0x00, 0x00, 0x00, 0x30] (place 0x61 [0xFF] (place 0xF8 [0x61]
        (start 0x61 [] [(5, 0x01), (7, 0xEB)])))).fatal (.decode (.unrecognizedOpcode 0xFF))) = true := by decide

/-! ### Fatal errors (vectors B6) and halting -/

theorem test_unrecognized_opcode :
    isNext (step (start 0x05 [0xFF])) ((start 0x05 [0xFF]).fatal (.decode (.unrecognizedOpcode 0xFF))) = true := by decide

theorem test_regidx_beats_underflow :
    isNext (step (start 0x00 [0x46, 0x09])) ((start 0x00 [0x46, 0x09]).fatal (.decode (.regIdx 0x46 0x09 none))) = true := by decide

theorem test_regidx_mask3 :
    isNext (step (withCfg { Config.default with regIdxPolicy := .mask3 } (start 0x00 [0x65, 0x08])))
      (withCfg { Config.default with regIdxPolicy := .mask3 } ((start 0x00 [0x65, 0x08] [(0, 0x01)]).setPc 0x02)) = true := by decide

theorem test_halted_core_stays : isExactly (step (start 0x0B [0x01]).halt) (start 0x0B [0x01]).halt = true := by decide

/-! ### Reset and load (R23, R190, R192) -/

theorem test_reset_memory_canonical : State.reset.mem.wf = true := by decide

theorem test_load :
    isExactly (resetWith .default [0x82, 0x00, 0x08, 0x01]) (place 0x00 [0x82, 0x00, 0x08, 0x01] State.reset) = true := by decide

theorem test_reset_event_of_a_halted_core :
    isExactly ((withInputs [true] (start 0x0B [0x01] [(0, 0x55)]).halt).resetEvent [0x01])
      (withInputs [true] (place 0x00 [0x01] State.reset)) = true := by decide

/-- Storing 0 removes the cell, so equal memories are equal lists. -/
theorem test_memory_canonical : ((State.reset.memWrite 0x10 0x05).memWrite 0x10 0x00).mem = [] := by decide

/-! ### Witnesses: for every obligation with hypotheses, a case that meets them all together, at a boundary value for each
clause -/

/-- AddiAddsImmediateModulo256, ResetLoadsImageAndZeros, DecodeInvertsEncode, OpcodeTableIsUnambiguous: legal parameters,
the default and one other. -/
theorem witness_legal_parameters :
    Config.default.wellFormed = true ∧ { Config.default with opcAddi := 0x80#8 }.wellFormed = true := by decide

/-- ModRemainderOrDivisionByZero: both clauses, the divisor 1 and the divisor 0. -/
theorem witness_mod :
    ((start 0x00 [] [(1, 0x01)]).reg 1).toNat ≠ 0 ∧ ((start 0x00 [] [(1, 0x00)]).reg 1).toNat = 0 := by decide

/-- CallPushesReturnAddressAndJumps, PushStoresBelowSp, StStoresOneByte, InterruptEntrySavesAndVectors: a canonical memory
that lists cells. -/
theorem witness_canonical_memory : (place 0xFE [0x01, 0x02, 0x03] State.reset).mem.wf = true := by decide

/-- RetAfterCallReturnsPastIt: a call that completes. -/
theorem witness_ret_after_call : State.reset.mem.wf = true ∧ ∃ t, exec (.call 1) State.reset = .next t := ⟨by decide, _, rfl⟩

/-- PopLoadsOrUnderflows: both clauses, SP = 0xF3 and SP = 0xF4. -/
theorem witness_pop :
    ((start 0x00 [] [(7, 0xF3)]).reg regSP).toNat ≤ 0xF3 ∧ 0xF3 < (State.reset.reg regSP).toNat := by decide

/-- PushThenPopRestores: SP = 1 and SP = 0xF4. -/
theorem witness_push_then_pop :
    (start 0x00 [] [(7, 0x01)]).mem.wf = true ∧ 0x01 ≤ ((start 0x00 [] [(7, 0x01)]).reg regSP).toNat ∧
    ((start 0x00 [] [(7, 0x01)]).reg regSP).toNat ≤ 0xF4 ∧ State.reset.mem.wf = true ∧
    0x01 ≤ (State.reset.reg regSP).toNat ∧ (State.reset.reg regSP).toNat ≤ 0xF4 := by decide

/-- IntRequestsOneInterrupt: each policy is the policy of a state. -/
theorem witness_int_policies :
    State.reset.cfg.intPcPolicy = .hold ∧
    (withCfg { Config.default with intPcPolicy := .advance2 } State.reset).cfg.intPcPolicy = .advance2 := by decide

/-- PendingCheckTakesLowest, first clause: enabled, nothing pending. -/
theorem witness_nothing_pending :
    (enabled (start 0x00 [] [(5, 0xF0), (6, 0x0F)])).ie = true ∧
    (enabled (start 0x00 [] [(5, 0xF0), (6, 0x0F)])).reg regIM &&& (enabled (start 0x00 [] [(5, 0xF0), (6, 0x0F)])).reg regIS = 0#8 := by
  decide

/-- PendingCheckTakesLowest, second clause: interrupt 0 with all pending, and interrupt 7 alone. -/
theorem witness_lowest_pending :
    (∀ j : Fin 8, j < 0 → ((0xFF#8 : Byte) &&& 0xFF#8).getLsbD j.val = false) ∧
    ((enabled (start 0x00 [] [(5, 0xFF), (6, 0xFF)])).reg regIM &&&
      (enabled (start 0x00 [] [(5, 0xFF), (6, 0xFF)])).reg regIS).getLsbD 0 = true ∧
    ((enabled (start 0x00 [] [(5, 0xFF), (6, 0x80)])).reg regIM &&&
      (enabled (start 0x00 [] [(5, 0xFF), (6, 0x80)])).reg regIS).getLsbD 7 = true ∧
    (∀ j : Fin 8, j < 7 → ((enabled (start 0x00 [] [(5, 0xFF), (6, 0x80)])).reg regIM &&&
      (enabled (start 0x00 [] [(5, 0xFF), (6, 0x80)])).reg regIS).getLsbD j.val = false) := by decide

/-- RequestLatchSetsBitZero: a request that comes, a state whose next input is free, and the last clause's disabled state. -/
theorem witness_request :
    (withInputs [true] State.reset).cfg.hasIrq0 = true ∧ (withInputs [true] State.reset).irq0.head? = some true ∧
    State.reset.cfg.hasIrq0 = true ∧ State.reset.irq0 = [] ∧ State.reset.ie = false := by decide

/-- InterruptRoundTripRestores: SP wraps inside the frame, and the handler has changed a register and a cell elsewhere. -/
theorem witness_round_trip :
    let s := start 0x30 [] [(0, 0x11), (6, 0x80), (7, 0x04)]
    let t := ((s.interruptEntry 7).setReg 0 0x99).memWrite 0x80 0x77
    s.mem.wf = true ∧ t.reg regSP = (s.interruptEntry 7).reg regSP ∧
    ∀ k : Fin 9, t.memRead (t.reg regSP + BitVec.ofNat 8 k.val) =
      (s.interruptEntry 7).memRead (t.reg regSP + BitVec.ofNat 8 k.val) := by decide

/-- TakenInterruptRunsHandlerFirst: interrupt 0 with its handler at 0x60, an INC. -/
theorem witness_taken_interrupt :
    let s := enabled (place 0xF8 [0x60] (place 0x60 [0x65, 0x01] (start 0x30 [] [(5, 0x01), (6, 0x01)])))
    s.run = .running ∧ s.mem.wf = true ∧ s.latchRequest.takenInterrupt = some 0 ∧
    (s.latchRequest.interruptEntry 0).fetchDecode = .ok (.inc 1) := ⟨by decide, by decide, by decide, rfl⟩

/-- InterruptsEnabledOnlyByIret, second clause: a step that turns `ie` on. -/
theorem witness_iret_enables :
    ∃ t, step (start 0x24 [0x13]) = .next t ∧ (start 0x24 [0x13]).ie = false ∧ t.ie = true := ⟨_, rfl, by decide, by decide⟩

/-- InterruptsEnabledOnlyByIret, third clause, OnlyTheListedWritersWrite: an instruction that completes. -/
theorem witness_exec_completes : ∃ t, exec (.cmp 0 1) State.reset = .next t ∧ t.fl ≠ State.reset.fl := ⟨_, rfl, by decide⟩

/-- UnrecognizedOpcodeHaltsWithCodeOne: both clauses, with the opcode 0x02. -/
theorem witness_unrecognized :
    let s := start 0x05 [0x02]
    s.run = .running ∧ s.beginCycle.memRead s.beginCycle.pc ∉ fixedOpcodes ++ [s.beginCycle.cfg.opcAddi] ∧
    ∃ t, step s = .next t ∧ t.run = .halted .unrecognizedOpcode := ⟨by decide, by decide, _, rfl, by decide⟩

/-- RegisterNumberCheck, first clause: register number 8, in operand A and in operand B. -/
theorem witness_register_number :
    (start 0x00 [0x65, 0x08]).run = .running ∧ (start 0x00 [0x65, 0x08]).cfg.wellFormed = true ∧
    formatOf (start 0x00 [0x65, 0x08]).beginCycle.cfg 0x65 = some .f1 ∧
    (start 0x00 [0x65, 0x08]).beginCycle.memRead (start 0x00 [0x65, 0x08]).beginCycle.pc = 0x65 ∧
    bytesWellFormed (start 0x00 [0x65, 0x08]).beginCycle.cfg 0x65 0x08 0x00 = false ∧
    formatOf (start 0x00 [0xA0, 0x00, 0x08]).beginCycle.cfg 0xA0 = some .f2rr ∧
    bytesWellFormed (start 0x00 [0xA0, 0x00, 0x08]).beginCycle.cfg 0xA0 0x00 0x08 = false := by decide

/-- RegisterNumberCheck, second clause: `mask3` with register number 8. -/
theorem witness_register_number_mask3 :
    let s := withCfg { Config.default with regIdxPolicy := .mask3 } (start 0x00 [0x65, 0x08])
    s.run = .running ∧ s.cfg.wellFormed = true ∧ s.beginCycle.cfg.regIdxPolicy = .mask3 ∧
    formatOf s.beginCycle.cfg (s.beginCycle.memRead s.beginCycle.pc) = some .f1 := by decide

/-- OnlyPopAndModRaiseTheirErrors: both errors are raised. -/
theorem witness_pop_and_mod_errors :
    State.reset.run = .running ∧ (∃ t, exec (.pop 0) State.reset = .next t ∧ t.run = .halted .stackUnderflow) ∧
    ∃ t, exec (.mod 0 1) State.reset = .next t ∧ t.run = .halted .divisionByZero :=
  ⟨by decide, ⟨_, rfl, by decide⟩, _, rfl, by decide⟩

/-- StepRunsTheDecodedInstruction: a two-byte instruction that wraps around the top of memory. -/
theorem witness_step_decoded :
    let s := start 0xFF [0x65, 0x03]
    s.run = .running ∧ decode s.beginCycle.cfg [s.beginCycle.memRead s.beginCycle.pc,
      s.beginCycle.memRead (s.beginCycle.pc + 1#8), s.beginCycle.memRead (s.beginCycle.pc + 2#8)] = .instr (.inc 3) [0x00] := by
  decide

/-- StepRunsTheEncodedInstruction: the three bytes of an ADD around the top of memory. -/
theorem witness_step_encoded :
    let s := start 0xFE [0xA0, 0x00, 0x01]
    s.run = .running ∧ s.cfg.wellFormed = true ∧ ∀ k (h : k < (encode s.beginCycle.cfg (.add 0 1)).length),
      s.beginCycle.memRead (s.beginCycle.pc + BitVec.ofNat 8 k) = (encode s.beginCycle.cfg (.add 0 1))[k] := by decide

/-- HaltedCoreIsInert: a halted core. -/
theorem witness_halted : State.reset.halt.run = .halted .normalHalt := by decide

/-- OperandCountGivesBytesAndAdvance, first clause: bytes that differ beyond the operand count. -/
theorem witness_operand_count :
    operandCount 0x65 = 1 ∧ (1 ≤ operandCount 0x65 → (0x03 : Byte) = 0x03) ∧ (operandCount 0x65 = 2 → (0x00 : Byte) = 0xFF) ∧
    operandCount 0x00 = 0 ∧ operandCount 0xA0 = 2 ∧ operandCount 0xC0 = 0 := by decide

/-- OperandCountGivesBytesAndAdvance, the other two clauses. -/
theorem witness_operand_count_advance :
    Config.default.wellFormed = true ∧ decodeInstr .default 0xA0 0x00 0x01 = .ok (.add 0 1) ∧
    ∃ t, exec (.add 0 1) State.reset = .next t ∧ State.reset.run = .running ∧ t.run = .running ∧
      setsPc (opcode State.reset.cfg (.add 0 1)) = false := ⟨by decide, rfl, _, rfl, by decide, by decide, by decide⟩

/-- OnlyTheListedWritersWrite, instructions: the premise of each clause is met. -/
theorem witness_writers :
    (∃ t, exec (.ldi 0 0x01) State.reset = .next t ∧ t.reg 0 ≠ State.reset.reg 0 ∧ t.pc ≠ State.reset.pc) ∧
    (∃ t, exec .iret (start 0x00 [] [(7, 0x00)]) = .next t ∧ t.ie ≠ (start 0x00 [] [(7, 0x00)]).ie) ∧
    (∃ t, exec (.push 7) State.reset = .next t ∧ t.mem ≠ State.reset.mem) ∧
    (∃ t, exec (.prn 0) State.reset = .next t ∧ t.out ≠ State.reset.out) ∧
    (∃ t, exec .hlt State.reset = .next t ∧ t.run ≠ State.reset.run) ∧
    ∃ t, exec (.pop 0) State.reset = .next t ∧ t.diag ≠ State.reset.diag :=
  ⟨⟨_, rfl, by decide, by decide⟩, ⟨_, rfl, by decide⟩, ⟨_, rfl, by decide⟩, ⟨_, rfl, by decide⟩, ⟨_, rfl, by decide⟩, _, rfl,
    by decide⟩

/-- OnlyTheListedWritersWrite, phases A and B: an entry that changes IS, SP, `pc`, `ie` and memory. -/
theorem witness_phase_writers :
    let s := enabled (place 0xF8 [0x60] (start 0x30 [] [(5, 0x01), (6, 0x01)]))
    s.beginCycle.reg regIS ≠ s.reg regIS ∧ s.beginCycle.reg regSP ≠ s.reg regSP ∧ s.beginCycle.pc ≠ s.pc ∧
    s.beginCycle.ie ≠ s.ie ∧ s.beginCycle.mem ≠ s.mem := by decide

/-- OutputIsAppendOnly: a step that appends an event. -/
theorem witness_output : ∃ t, step (start 0x00 [0x47, 0x00]) = .next t ∧ t.out = [.prn 0x00] := ⟨_, rfl, by decide⟩

/-- EncodeInvertsDecode: bytes that decode, with a byte left over. -/
theorem witness_encode_inverts :
    Config.default.wellFormed = true ∧ Config.default.regIdxPolicy = .fault ∧
    decode .default [0xA0, 0x00, 0x07, 0x01] = .instr (.add 0 7) [0x01] := by decide

/-- OpcodeTableIsUnambiguous, last clause: the least opcode with top bits 11. -/
theorem witness_top_bits_11 : 0xC0 ≤ (0xC0#8 : Byte).toNat := by decide

/-- ResetLoadsImageAndZeros: an image of 256 bytes and one of 257. -/
theorem witness_image_lengths :
    (List.replicate 256 (0x01 : Byte)).length ≤ 256 ∧ 256 < (List.replicate 257 (0x01 : Byte)).length := by
  simp only [List.length_replicate]
  decide

/-- ResetEventForgetsTheOldState, first two clauses: a halted core, an image that fits and one that does not. -/
theorem witness_reset_event_answers :
    (∃ u, resetWith (start 0x0B [0x01] [(0, 0x55)]).halt.cfg [0x01] = .next u) ∧
    ∃ r, resetWith (start 0x0B [0x01] [(0, 0x55)]).halt.cfg (List.replicate 257 0x01) = .refused r :=
  ⟨⟨_, rfl⟩, .imageTooLong, by
    rw [resetWith, if_neg (by decide), if_pos (by rw [imageWellFormed, List.length_replicate]; decide)]⟩

/-- ResetEventForgetsTheOldState, last clause: two different states, one of them halted. -/
theorem witness_reset_event :
    withInputs [false] State.reset ≠ (start 0x0B [0x01] [(0, 0x55)]).halt ∧
    (withInputs [false] State.reset).cfg = (start 0x0B [0x01] [(0, 0x55)]).halt.cfg ∧
    (withInputs [false] State.reset).irq0 = (start 0x0B [0x01] [(0, 0x55)]).halt.irq0 ∧
    (withInputs [false] State.reset).inputCount = (start 0x0B [0x01] [(0, 0x55)]).halt.inputCount ∧
    (withInputs [false] State.reset).cfg.wellFormed = true ∧ ([0x01] : List Byte).length ≤ 256 := by decide

/-- StepKeepsInvariant: a running state whose step halts the core with a fatal error, and a halted state. -/
theorem witness_invariant :
    (start 0x00 [0x46, 0x00]).Inv ∧ (∃ t, step (start 0x00 [0x46, 0x00]) = .next t ∧ t.run = .halted .stackUnderflow) ∧
    (start 0x0B [0x01]).halt.Inv :=
  ⟨⟨by decide, by decide, rfl⟩, ⟨_, rfl, by decide⟩, by decide, by decide, rfl, rfl⟩

end Sys2Proof.Tests
end

/-! ### What `ie` bears on (10_state.md R16)

Every meaning but IRET's commutes with a change of `ie`: it neither reads nor writes the flag. That it keeps the flag is
the case where `ie` is changed to the value it has. -/

namespace Sys2Proof.Machine

/-- The dispatcher's advance neither reads nor writes `ie`. -/
theorem State.advance_setIe (s : State) (b : Bool) (ir : Byte) : (s.setIe b).advance ir = (s.advance ir).setIe b := by
  unfold State.advance; split <;> rfl

theorem State.requestInterrupt_setIe (s : State) (b : Bool) (n : Nat) :
    (s.setIe b).requestInterrupt n = (s.requestInterrupt n).setIe b := by
  unfold State.requestInterrupt; split <;> rfl

/-- The return from an interrupt overwrites `ie` and does not read it (R151). -/
theorem State.interruptReturn_setIe (s : State) (b : Bool) : (s.setIe b).interruptReturn = s.interruptReturn := rfl

/-- Phases A and B never turn `ie` on. -/
theorem State.beginCycle_ie_of_disabled {s : State} (h : s.ie = false) : s.beginCycle.ie = false := by
  unfold State.beginCycle
  rcases s.latchRequest.interruptCheck_cases with ⟨i, -, e⟩ | ⟨-, e⟩ <;> simp [e, h]

/-- A state operation that neither reads nor writes `ie`. -/
def CommutesWithIe (f : State → State) : Prop := ∀ (s : State) (b : Bool), f (s.setIe b) = (f s).setIe b

/-- A meaning that neither reads nor writes `ie`. -/
def IgnoresIe (m : State → Result) : Prop :=
  ∀ (s t : State) (b : Bool), m s = .next t → m (s.setIe b) = .next (t.setIe b)

theorem IgnoresIe.of_next {f : State → State} (hf : CommutesWithIe f) : IgnoresIe fun s => .next (f s) := by
  rintro s _ b ⟨⟩
  exact congrArg _ (hf s b)

/-- The shape of most meanings: a state operation, then the dispatcher's advance by an opcode byte. -/
theorem IgnoresIe.of_advance {f : State → State} {ir : State → Byte} (hf : CommutesWithIe f)
    (hir : ∀ (s : State) (b : Bool), ir (s.setIe b) = ir s) : IgnoresIe fun s => .next ((f s).advance (ir s)) :=
  .of_next fun s b => by rw [hf, hir, State.advance_setIe]

/-- A test that does not read `ie` between two meanings that ignore it. -/
theorem IgnoresIe.ite {p : State → Prop} [DecidablePred p] {m n : State → Result}
    (hp : ∀ (s : State) (b : Bool), p (s.setIe b) ↔ p s) (hm : IgnoresIe m) (hn : IgnoresIe n) :
    IgnoresIe fun s => if p s then m s else n s := by
  intro s t b h
  by_cases hs : p s
  · simpa only [hp, hs, if_true] using hm s t b (by simpa only [hs, if_true] using h)
  · simpa only [hp, hs, if_false] using hn s t b (by simpa only [hs, if_false] using h)

/-- What commutes with every change of `ie` does not change it. -/
theorem IgnoresIe.keeps_ie {m : State → Result} (hm : IgnoresIe m) {s t : State} (h : m s = .next t) : t.ie = s.ie := by
  have ht : t = t.setIe s.ie := Host.Outcome.next.inj (h.symm.trans (hm s t s.ie h))
  calc t.ie = (t.setIe s.ie).ie := congrArg State.ie ht
    _ = s.ie := rfl

/-- POP's test reads SP only. -/
theorem execPop_ignoresIe (a : Reg) : IgnoresIe (execPop a) :=
  .ite (fun _ _ => Iff.rfl) (.of_next fun _ _ => rfl) (.of_advance (fun _ _ => rfl) fun _ _ => rfl)

/-- MOD's test reads the divisor only. -/
theorem execMod_ignoresIe (a b : Reg) : IgnoresIe (execMod a b) :=
  .ite (fun _ _ => Iff.rfl) (.of_next fun _ _ => rfl) (.of_advance (fun _ _ => rfl) fun _ _ => rfl)

/-- RET under either `RET_POPS`. -/
theorem execRet_ignoresIe : IgnoresIe execRet :=
  .of_advance (fun s b => by
    cases hp : s.cfg.retPops with
    | false => simp only [State.setIe_cfg, hp]; rfl
    | true => simp only [State.setIe_cfg, hp]; rfl) fun _ _ => rfl

/-- INT under either `INT_PC_POLICY`. -/
theorem execInt_ignoresIe (a : Reg) : IgnoresIe (execInt a) := by
  intro s t b h
  cases hp : s.cfg.intPcPolicy with
  | hold =>
    simp only [execInt, hp, State.setIe_cfg] at h ⊢
    exact IgnoresIe.of_advance (f := fun s => s.requestInterrupt (s.regVal a)) (ir := fun s => opcode s.cfg (.int a))
      (fun s b => s.requestInterrupt_setIe b (s.regVal a)) (fun _ _ => rfl) s t b h
  | advance2 =>
    simp only [execInt, hp, State.setIe_cfg] at h ⊢
    exact IgnoresIe.of_advance (f := fun s => (s.requestInterrupt (s.regVal a)).setPc s.pastOperand)
      (ir := fun s => opcode s.cfg (.int a))
      (fun s b => congrArg (State.setPc · s.pastOperand) (s.requestInterrupt_setIe b (s.regVal a))) (fun _ _ => rfl) s t b h

/-- No instruction but IRET reads or writes `ie`. -/
theorem exec_ignoresIe {i : Instr} (hi : i ≠ .iret) : IgnoresIe (exec i) := by
  cases i with
  | iret => exact absurd rfl hi
  | hlt => exact .of_next fun _ _ => rfl
  | pop a => exact execPop_ignoresIe a
  | mod a b => exact execMod_ignoresIe a b
  | ret => exact execRet_ignoresIe
  | int a => exact execInt_ignoresIe a
  | nop | push a | prn a | pra a | call a | jmp a | jeq a | jne a | inc a | dec a | not a | ldi a imm | ld a b | st a b
  | add a b | mul a b | addi a imm | cmp a b | and a b | or a b | xor a b | shl a b | shr a b =>
    exact .of_advance (fun _ _ => rfl) fun _ _ => rfl

/-- IRET gives the same result whatever `ie` was. -/
theorem exec_iret_setIe (s : State) (b : Bool) : exec .iret (s.setIe b) = exec .iret s :=
  congrArg (fun u : State => Host.Outcome.next (u.advance (opcode s.cfg .iret))) (s.interruptReturn_setIe b)

/-- A cycle that turns `ie` on ran an IRET. -/
theorem step_enables_only_by_iret {s t : State} (h : step s = .next t) (hs : s.ie = false) (ht : t.ie = true) :
    s.run = .running ∧ s.beginCycle.fetchDecode = .ok .iret := by
  have hbegin : s.beginCycle.ie = false := State.beginCycle_ie_of_disabled hs
  obtain ⟨-, rfl⟩ | ⟨hrun, i, hfetch, hexec⟩ | ⟨-, r, -, rfl⟩ := step_cases h
  · simp [hs] at ht
  · by_cases hi : i = .iret
    · exact ⟨hrun, hi ▸ hfetch⟩
    · have hkept := (exec_ignoresIe hi).keeps_ie hexec
      simp [hkept, hbegin] at ht
  · simp [hbegin] at ht

/-- Another value of `ie` before an instruction only shows as that value after it, and after IRET not at all. -/
theorem exec_setIe {i : Instr} {s t : State} (b : Bool) (h : exec i s = .next t) :
    exec i (s.setIe b) = .next (if i = .iret then t else t.setIe b) := by
  by_cases hi : i = .iret
  · subst hi
    rw [if_pos rfl, exec_iret_setIe, h]
  · rw [if_neg hi, exec_ignoresIe hi s t b h]

/-- Settles O28: entry clears `ie`, and every meaning but IRET's commutes with a change of `ie`. -/
theorem interruptsEnabledOnlyByIret : Obligations.InterruptsEnabledOnlyByIret :=
  ⟨State.interruptEntry_ie, fun _ _ => step_enables_only_by_iret, fun _ _ _ b => exec_setIe b⟩

end Sys2Proof.Machine

/-! ### ALU instructions (41_alu.md)

An ALU instruction writes one operation's result and leaves the rest to the dispatcher's advance (R78), so
`WritesReg.of_setReg` gives its frame, and its own part is a fact about that operation. -/

namespace Sys2Proof.Machine

/-- R110 on integers: `0 - 1` is 255. -/
theorem aluDec_toNat_eq_emod (p : Nat) : ((aluDec p).toNat : Int) = ((p : Int) - 1) % 256 := by
  rw [aluDec_toNat]
  omega

/-- R112: the remainder of a byte is a byte, so `trunc8` does not change it. -/
theorem aluMod_toNat_of_byte (p : Byte) (q : Nat) : (aluMod p.toNat q).toNat = p.toNat % q := by
  have hlt : p.toNat % q < 256 := (Nat.mod_le _ _).trans_lt p.isLt
  rw [aluMod_toNat, Nat.mod_eq_of_lt hlt]

/-- R103, bit by bit. -/
theorem aluAnd_getLsbD (p q : Byte) (k : Nat) : (aluAnd p q).getLsbD k = (p.getLsbD k && q.getLsbD k) :=
  BitVec.getLsbD_and

/-- R104, bit by bit. -/
theorem aluOr_getLsbD (p q : Byte) (k : Nat) : (aluOr p q).getLsbD k = (p.getLsbD k || q.getLsbD k) :=
  BitVec.getLsbD_or

/-- R105, bit by bit. -/
theorem aluXor_getLsbD (p q : Byte) (k : Nat) : (aluXor p q).getLsbD k = (p.getLsbD k != q.getLsbD k) := by
  rw [aluXor_eq, BitVec.getLsbD_xor]

/-- R106, the second form. -/
theorem aluNot_toNat (p : Byte) : (aluNot p.toNat).toNat = 255 - p.toNat := by
  rw [aluNot_eq, BitVec.toNat_not]

/-- R106, bit by bit. -/
theorem aluNot_getLsbD (p : Byte) {k : Nat} (hk : k < 8) : (aluNot p.toNat).getLsbD k = !p.getLsbD k := by
  simp [aluNot_eq, hk]

/-- MOD by 0 raises the fatal error of code 4 before anything is written (R112). -/
theorem exec_mod_of_zero {s : State} {b : Reg} (a : Reg) (h : s.regVal b = 0) :
    exec (.mod a b) s = .next (s.fatal .divisionByZero) :=
  if_pos h

/-- MOD by another divisor writes the remainder and advances (R112). -/
theorem exec_mod_of_ne_zero {s : State} {b : Reg} (a : Reg) (h : s.regVal b ≠ 0) : exec (.mod a b) s =
    .next ((s.setReg a (aluMod (s.regVal a) (s.regVal b))).advance (opcode s.cfg (.mod a b))) :=
  if_neg h

/-- Settles O1: each writes `trunc8` of its result. -/
theorem arithmeticWrapsModulo256 : Obligations.ArithmeticWrapsModulo256 := by
  intro s a b
  refine ⟨?add, ?inc, ?dec, ?mul, rfl, rfl, rfl, rfl⟩
  case add => exact .of_setReg (ir := 0xA0#8) rfl rfl (by decide) (aluAdd_toNat _ _)
  case inc => exact .of_setReg (ir := 0x65#8) rfl rfl (by decide) (aluAdd_toNat _ _)
  case dec => exact .of_setReg (ir := 0x66#8) rfl rfl (by decide) (aluDec_toNat_eq_emod _)
  case mul => exact .of_setReg (ir := 0xA2#8) rfl rfl (by decide) (aluMul_toNat _ _)

/-- Settles O3: each writes its operation, which acts on every bit alone. -/
theorem logicIsBitwise : Obligations.LogicIsBitwise := by
  intro s a b
  refine ⟨?and, ?or, ?xor, ?not, rfl, rfl, rfl, rfl⟩
  case and => exact .of_setReg (ir := 0xA8#8) rfl rfl (by decide) (aluAnd_getLsbD _ _)
  case or => exact .of_setReg (ir := 0xAA#8) rfl rfl (by decide) (aluOr_getLsbD _ _)
  case xor => exact .of_setReg (ir := 0xAB#8) rfl rfl (by decide) ⟨rfl, aluXor_getLsbD _ _⟩
  case not => exact .of_setReg (ir := 0x69#8) rfl rfl (by decide) ⟨aluNot_toNat _, fun _ => aluNot_getLsbD _⟩

/-- Settles O5: the two branches of the divisor test. -/
theorem modRemainderOrDivisionByZero : Obligations.ModRemainderOrDivisionByZero := by
  intro s a b
  refine ⟨fun hb => ?remainder, fun hb => ?zero, rfl, rfl⟩
  case remainder =>
    have hrem := aluMod_toNat_of_byte (s.reg a) (s.regVal b)
    exact .of_setReg (ir := 0xA4#8) (exec_mod_of_ne_zero a hb) rfl (by decide)
      ⟨hrem, hrem ▸ Nat.mod_lt _ (Nat.pos_of_ne_zero hb)⟩
  case zero => exact ⟨_, exec_mod_of_zero a hb, .of_fatal _ s⟩

end Sys2Proof.Machine

/-! ### Jumps (42_control_flow.md section 2)

Bit 4 of each opcode is 1, so `OnlyJumps.of_setPc` gives the frame, and a jump's own part is the `pc` its handler sets. -/

namespace Sys2Proof.Machine

/-- R123 in the order of the rule: the model's handler has its two paths the other way round. -/
theorem exec_jne (s : State) (a : Reg) : exec (.jne a) s =
    .next ((s.setPc (if flagE s.fl = false then s.branchTarget a else s.pastOperand)).advance 0x56#8) := by
  change execJne a s = _
  unfold execJne
  cases flagE s.fl with
  | false => rfl
  | true => rfl

/-- Settles O7: each handler sets `pc` to its target, and the dispatcher leaves it there. -/
theorem jumpsSetPcAndNothingElse : Obligations.JumpsSetPcAndNothingElse := by
  intro s a
  refine ⟨?jmp, ?jeq, ?jne, rfl, rfl, rfl⟩
  case jmp => exact .of_setPc (ir := 0x54#8) rfl rfl
  case jeq => exact .of_setPc (ir := 0x55#8) rfl rfl
  case jne => exact .of_setPc (exec_jne s a) rfl

end Sys2Proof.Machine

/-! ### Data movement and NOP (44_data_output_system.md)

The opcodes leave `pc` to the dispatcher, so what these instructions do to it is the advance's doing (R78). -/

namespace Sys2Proof.Machine

/-- With bit 4 clear the dispatcher adds the instruction's length to `pc`. -/
theorem State.advance_pc_of_not_setsPc {s : State} {ir : Byte} {len : Nat} (hir : setsPc ir = false)
    (hlen : nops ir + 1 = len) : (s.advance ir).pc = s.pc + BitVec.ofNat 8 len := by
  simp [State.advance_pc, hir, hlen]

/-- A meaning that is the dispatcher's advance alone, by an opcode that has it add the length to `pc`. -/
theorem OnlyJumps.of_advance {i : Instr} {s : State} {ir : Byte} {len : Nat}
    (he : exec i s = .next (s.advance ir)) (hir : setsPc ir = false) (hlen : nops ir + 1 = len) :
    OnlyJumps i s (s.pc + BitVec.ofNat 8 len) :=
  ⟨_, he, State.advance_pc_of_not_setsPc hir hlen, fun r _ => s.advance_reg ir r, s.advance_fl ir, s.advance_ie ir,
    s.advance_memRead ir, s.advance_out ir, by simp [KeepsRun]⟩

/-- Settles O14: both write one register, LD the source's value and LDI the immediate. -/
theorem ldCopiesAndLdiLoads : Obligations.LdCopiesAndLdiLoads := by
  intro s a b imm
  refine ⟨?ld, ?ldi, rfl, rfl⟩
  case ld => exact .of_setReg (ir := 0x83#8) rfl rfl (by decide) rfl
  case ldi => exact .of_setReg (ir := 0x82#8) rfl rfl (by decide) rfl

/-- Settles O15: one memory write, then the dispatcher's advance; canonical memory reads back what was written. -/
theorem stStoresOneByte : Obligations.StStoresOneByte := by
  intro s a b hwf
  have hexec : exec (.st a b) s = .next ((s.memWrite (s.storeAddr a) (s.reg b)).advance 0x84#8) := rfl
  have hread (w : Addr) : ((s.memWrite (s.storeAddr a) (s.reg b)).advance 0x84#8).memRead w =
      if w = s.storeAddr a then s.reg b else s.memRead w := by
    rw [State.advance_memRead, State.memRead_memWrite hwf]
  refine ⟨_, hexec, rfl, ?stored, fun w hw => ?otherBytes, ?pc, fun r _ => by simp, by simp, by simp, by simp,
    by simp [KeepsRun], rfl⟩
  case stored => exact (hread _).trans (if_pos rfl)
  case otherBytes => exact (hread w).trans (if_neg hw)
  case pc => exact State.advance_pc_of_not_setsPc rfl (by decide)

/-- Settles O18: NOP's handler does nothing, and its opcode announces no operand. -/
theorem nopOnlyAdvancesPc : Obligations.NopOnlyAdvancesPc := fun _ =>
  ⟨.of_advance (ir := 0x00#8) (len := 1) rfl rfl (by decide), rfl⟩

end Sys2Proof.Machine

/-! ### Interrupt operations (60_exceptions.md section 3, R178)

Phase B is decided by `lowestPending`, so the pending check has one equation per answer of it. -/

namespace Sys2Proof.Machine

/-- Phase B enters the interrupt taken. -/
theorem State.interruptCheck_of_taken {s : State} {i : Fin 8} (h : s.takenInterrupt = some i) :
    s.interruptCheck = s.interruptEntry i := by
  rw [State.interruptCheck, h]

/-- Phase B does nothing when no interrupt is taken. -/
theorem State.interruptCheck_of_not_taken {s : State} (h : s.takenInterrupt = none) : s.interruptCheck = s := by
  rw [State.interruptCheck, h]

/-- With interrupts enabled the least pending one is taken (R169). -/
theorem State.takenInterrupt_of_enabled {s : State} (h : s.ie = true) :
    s.takenInterrupt = lowestPending (s.reg regIM &&& s.reg regIS) :=
  if_pos h

@[simp] theorem State.interruptCheck_run (s : State) : s.interruptCheck.run = s.run := by
  obtain ⟨i, -, h⟩ | ⟨-, h⟩ := s.interruptCheck_cases
  · rw [h, State.interruptEntry_run]
  · rw [h]

@[simp] theorem State.interruptCheck_diag (s : State) : s.interruptCheck.diag = s.diag := by
  obtain ⟨i, -, h⟩ | ⟨-, h⟩ := s.interruptCheck_cases
  · rw [h, State.interruptEntry_diag]
  · rw [h]

/-- INT completes under either `INT_PC_POLICY`, and neither the request nor the advance touches the run state (R150). -/
theorem exec_int_keeps_run_diag (s : State) (a : Reg) :
    ∃ t, exec (.int a) s = .next t ∧ t.run = s.run ∧ t.diag = s.diag := by
  change ∃ t, execInt a s = .next t ∧ _
  unfold execInt
  cases s.cfg.intPcPolicy with
  | hold => exact ⟨_, rfl, by simp, by simp⟩
  | advance2 => exact ⟨_, rfl, by simp, by simp⟩

/-- IRET completes whatever the stack holds (R151). -/
theorem exec_iret_keeps_run_diag (s : State) : ∃ t, exec .iret s = .next t ∧ t.run = s.run ∧ t.diag = s.diag :=
  ⟨_, rfl, by simp, by simp⟩

/-- Settles O23: the interrupt taken is `lowestPending`, which is none exactly for 0 and otherwise the least set bit. -/
theorem pendingCheckTakesLowest : Obligations.PendingCheckTakesLowest := by
  intro s hie
  have htaken := State.takenInterrupt_of_enabled hie
  refine ⟨fun hzero => ?nonePending, fun i hset hleast => ?leastPending⟩
  case nonePending => exact State.interruptCheck_of_not_taken (htaken.trans (lowestPending_none.mpr hzero))
  case leastPending => exact State.interruptCheck_of_taken (htaken.trans (lowestPending_some.mpr ⟨hset, hleast⟩))

/-- Settles O27: none of the four operations raises, so each keeps the run state and the diagnosis. -/
theorem interruptOperationsNeverFail : Obligations.InterruptOperationsNeverFail := fun s i a =>
  ⟨exec_int_keeps_run_diag s a, exec_iret_keeps_run_diag s, s.interruptEntry_run i, s.interruptEntry_diag i,
    s.interruptCheck_run, s.interruptCheck_diag⟩

end Sys2Proof.Machine

/-! ### The opcode table (30_encoding.md)

Every fact about the decoder goes through the shape of the row that phase E finds: a row says how its instructions are
encoded (`Shape.Encodes`), and an instruction's own opcode finds the row that makes it (`lookupOpcode_opcode`). -/

namespace Sys2Proof

/-- The instructions a row of the opcode table makes. -/
def Shape.Makes : Shape → Instr → Prop
  | .f0 j, i => i = j
  | .f1 mk, i => ∃ a, i = mk a
  | .f2rr mk, i => ∃ a b, i = mk a b
  | .f2ri mk, i => ∃ a imm, i = mk a imm

/-- The encodings of a row's instructions, and the operand count its opcode announces (R50). -/
def Shape.Encodes (c : Config) (ir : Byte) : Shape → Prop
  | .f0 i => nops ir = 0 ∧ encode c i = [ir]
  | .f1 mk => nops ir = 1 ∧ ∀ a, encode c (mk a) = [ir, regByte a]
  | .f2rr mk => nops ir = 2 ∧ ∀ a b, encode c (mk a b) = [ir, regByte a, regByte b]
  | .f2ri mk => nops ir = 2 ∧ ∀ a imm, encode c (mk a imm) = [ir, regByte a, imm]

/-- The format of a row (R50). -/
def Shape.format : Shape → Format
  | .f0 _ => .f0
  | .f1 _ => .f1
  | .f2rr _ => .f2rr
  | .f2ri _ => .f2ri

theorem opcodeTable_encodes {c : Config} (h : c.wellFormed = true) :
    ∀ row ∈ opcodeTable c, row.2.Encodes c row.1 := by
  have haddi : (c.opcAddi >>> 6).toNat = 2 := Machine.nops_opcAddi h
  simpa [opcodeTable, Shape.Encodes, encode, opcode, operandBytes, nops] using haddi

/-- What phase E finds encodes its instructions with the byte looked up. -/
theorem lookupOpcode_encodes {c : Config} {ir : Byte} {sh : Shape} (h : c.wellFormed = true)
    (hl : lookupOpcode c ir = some sh) : sh.Encodes c ir :=
  opcodeTable_encodes h _ (lookupOpcode_mem hl)

/-- Past the fixed rows stands ADDI's. -/
theorem lookupOpcode_opcAddi {c : Config} (h : c.opcAddi ∉ fixedOpcodes) :
    lookupOpcode c c.opcAddi = some (.f2ri .addi) := by
  simp [fixedOpcodes, fixedOpcodesOf] at h
  simp [lookupOpcode, opcodeTable, List.lookup, beq_eq_false_iff_ne.mpr, h]

/-- Phase E finds the row that makes the instruction (R75). -/
theorem lookupOpcode_opcode {c : Config} (h : c.wellFormed = true) (i : Instr) :
    ∃ sh, lookupOpcode c (opcode c i) = some sh ∧ sh.Makes i := by
  cases i with
  | addi a imm => exact ⟨_, lookupOpcode_opcAddi (opcAddi_not_fixed h), a, imm, rfl⟩
  | nop | hlt | ret | iret => exact ⟨_, rfl, rfl⟩
  | push a | pop a | prn a | pra a | call a | int a | jmp a | jeq a | jne a | inc a | dec a | not a =>
    exact ⟨_, rfl, a, rfl⟩
  | ldi a imm => exact ⟨_, rfl, a, imm, rfl⟩
  | ld a b | st a b | add a b | mul a b | mod a b | cmp a b | and a b | or a b | xor a b | shl a b | shr a b =>
    exact ⟨_, rfl, a, b, rfl⟩

/-- The format of an opcode byte is that of the row phase E finds, for illegal parameters too (log 14). -/
theorem formatOf_eq_lookupOpcode (c : Config) (ir : Byte) :
    formatOf c ir = (lookupOpcode c ir).map Shape.format := by
  by_cases hfixed : ir ∈ fixedOpcodes
  · simp only [fixedOpcodes, fixedOpcodesOf, List.cons_append, List.nil_append, List.mem_cons, List.not_mem_nil,
      or_false] at hfixed
    casesm* _ ∨ _ <;> subst ir <;> rfl
  · by_cases haddi : ir = c.opcAddi
    · subst haddi
      rw [lookupOpcode_opcAddi hfixed]
      simp [fixedOpcodes] at hfixed
      simp [formatOf, hfixed, Shape.format]
    · have hnone : lookupOpcode c ir = none := (lookupOpcode_none c ir).mpr (by simp [hfixed, haddi])
      simp [fixedOpcodes] at hfixed
      simp [formatOf, hfixed, haddi, hnone]

/-! ### The decoder, by the row found -/

theorem operandCount_of_nops {ir : Byte} {n : Nat} (h : nops ir = n) (hn : n ≠ 3) : operandCount ir = n := by
  rw [operandCount, h, if_neg hn]

/-- Phase F accepts exactly the bytes R53 allows. -/
theorem decodeReg_isSome (c : Config) (b : Byte) :
    (∃ r, decodeReg c b = some r) ↔ regByteWellFormed c b = true := by
  rw [← Option.isSome_iff_exists, ← Option.ne_none_iff_isSome, Ne, decodeReg_none, regByteWellFormed]
  cases c.regIdxPolicy <;> simp

end Sys2Proof

namespace Sys2Proof

/-- A recognized opcode announces at most two operands, so phase D reads as many as it announces (R50, R74). -/
theorem operandCount_of_lookup {c : Config} {ir : Byte} {sh : Shape} (h : c.wellFormed = true)
    (hl : lookupOpcode c ir = some sh) : operandCount ir = nops ir ∧ nops ir ≤ 2 := by
  have hle : nops ir ≤ 2 := by
    have he := lookupOpcode_encodes h hl
    cases sh with
    | f0 i => exact he.1.le.trans (by decide)
    | f1 mk => exact he.1.le.trans (by decide)
    | f2rr mk => exact he.1.le
    | f2ri mk => exact he.1.le
  exact ⟨if_neg (by omega), hle⟩

/-- Decoding bytes succeeds on recognized opcodes only. -/
theorem lookup_of_decodeInstr {c : Config} {ir a b : Byte} {i : Instr} (h : decodeInstr c ir a b = .ok i) :
    ∃ sh, lookupOpcode c ir = some sh := by
  cases hl : lookupOpcode c ir with
  | none => simp [decodeInstr, hl] at h
  | some sh => exact ⟨sh, rfl⟩

/-- When the front of a byte sequence is an instruction: its bytes are there and decode (R59). -/
theorem decode_eq_instr_iff {c : Config} {ir : Byte} {tail rest : List Byte} {i : Instr} :
    decode c (ir :: tail) = .instr i rest ↔ operandCount ir ≤ tail.length ∧
      decodeInstr c ir (tail.getD 0 0#8) (tail.getD 1 0#8) = .ok i ∧ tail.drop (operandCount ir) = rest := by
  cases hl : lookupOpcode c ir with
  | none => simp [decode, decodeInstr, hl]
  | some sh =>
    by_cases hshort : tail.length < operandCount ir
    · simp [decode, hl, hshort]
    · cases hd : decodeInstr c ir (tail.getD 0 0#8) (tail.getD 1 0#8) with
      | error r =>
        simp only [decode, hl, hshort, hd, if_false]
        simp
      | ok j =>
        simp only [decode, hl, hshort, hd, if_false, StreamResult.instr.injEq, Except.ok.injEq]
        simp [Nat.le_of_not_lt hshort]

/-- Settles O39: the instruction's opcode finds the row that makes it, and phase F reads its register bytes back. -/
theorem decodeInvertsEncode : Obligations.DecodeInvertsEncode := by
  intro c i rest h
  obtain ⟨sh, hl, hmakes⟩ := lookupOpcode_opcode h i
  have hencodes := lookupOpcode_encodes h hl
  have hcount := (operandCount_of_lookup h hl).1
  cases sh with
  | f0 j =>
    obtain ⟨hnops, hbytes⟩ := hencodes
    obtain rfl : i = j := hmakes
    simp [hbytes, decode_eq_instr_iff, hcount, hnops, decodeInstr, hl]
  | f1 mk =>
    obtain ⟨hnops, hbytes⟩ := hencodes
    obtain ⟨a, rfl⟩ := hmakes
    simp [hbytes, decode_eq_instr_iff, hcount, hnops, decodeInstr, hl]
  | f2rr mk =>
    obtain ⟨hnops, hbytes⟩ := hencodes
    obtain ⟨a, b, rfl⟩ := hmakes
    simp [hbytes, decode_eq_instr_iff, hcount, hnops, decodeInstr, hl]
  | f2ri mk =>
    obtain ⟨hnops, hbytes⟩ := hencodes
    obtain ⟨a, imm, rfl⟩ := hmakes
    simp [hbytes, decode_eq_instr_iff, hcount, hnops, decodeInstr, hl]

/-- Under `fault`, bytes that decode are the opcode and the announced operand bytes of what they decode to. -/
theorem encode_of_decodeInstr {c : Config} {ir opA opB : Byte} {i : Instr} (h : c.wellFormed = true)
    (hf : c.regIdxPolicy = .fault) (hd : decodeInstr c ir opA opB = .ok i) :
    encode c i = ir :: [opA, opB].take (nops ir) := by
  obtain ⟨sh, hl⟩ := lookup_of_decodeInstr hd
  have hencodes := lookupOpcode_encodes h hl
  have hreg {b : Byte} {r : Reg} (hr : decodeReg c b = some r) : b = regByte r := regByte_of_decodeReg hr hf
  cases sh with
  | f0 j =>
    obtain ⟨hnops, hbytes⟩ := hencodes
    obtain rfl : j = i := by simpa [decodeInstr, hl] using hd
    simp [hbytes, hnops]
  | f1 mk =>
    obtain ⟨hnops, hbytes⟩ := hencodes
    cases ha : decodeReg c opA with
    | none => simp [decodeInstr, hl, ha] at hd
    | some a =>
      obtain rfl : mk a = i := by simpa [decodeInstr, hl, ha] using hd
      simp [hbytes, hnops, hreg ha]
  | f2rr mk =>
    obtain ⟨hnops, hbytes⟩ := hencodes
    cases ha : decodeReg c opA with
    | none => simp [decodeInstr, hl, ha] at hd
    | some a =>
      cases hb : decodeReg c opB with
      | none => simp [decodeInstr, hl, ha, hb] at hd
      | some b =>
        obtain rfl : mk a b = i := by simpa [decodeInstr, hl, ha, hb] using hd
        simp [hbytes, hnops, hreg ha, hreg hb]
  | f2ri mk =>
    obtain ⟨hnops, hbytes⟩ := hencodes
    cases ha : decodeReg c opA with
    | none => simp [decodeInstr, hl, ha] at hd
    | some a =>
      obtain rfl : mk a opB = i := by simpa [decodeInstr, hl, ha] using hd
      simp [hbytes, hnops, hreg ha]

/-- The two bytes the decoder is given begin with the announced operands of the sequence (log 8). -/
theorem take_operands {tail : List Byte} {n : Nat} (hn : n ≤ 2) (hlen : n ≤ tail.length) :
    [tail.getD 0 0#8, tail.getD 1 0#8].take n = tail.take n := by
  match tail, n with
  | _, 0 => rfl
  | a :: _, 1 => rfl
  | a :: b :: _, 2 => rfl

/-- Settles O40: the decoded bytes are the encoding, and `decode` leaves the bytes after them. -/
theorem encodeInvertsDecode : Obligations.EncodeInvertsDecode := by
  intro c bytes rest i h hf hd
  cases bytes with
  | nil => simp [decode] at hd
  | cons ir tail =>
    obtain ⟨hlen, hinstr, rfl⟩ := decode_eq_instr_iff.mp hd
    obtain ⟨sh, hl⟩ := lookup_of_decodeInstr hinstr
    obtain ⟨hcount, hle⟩ := operandCount_of_lookup h hl
    rw [hcount] at hlen ⊢
    rw [encode_of_decodeInstr h hf hinstr, take_operands hle hlen, List.cons_append, List.take_append_drop]

/-- Decoding does not look at bytes beyond the announced operands (log 8). -/
theorem decodeInstr_congr {c : Config} {ir a b a' b' : Byte} (h : c.wellFormed = true)
    (ha : 1 ≤ operandCount ir → a = a') (hb : operandCount ir = 2 → b = b') :
    decodeInstr c ir a b = decodeInstr c ir a' b' := by
  cases hl : lookupOpcode c ir with
  | none => simp [decodeInstr, hl]
  | some sh =>
    have hencodes := lookupOpcode_encodes h hl
    have hcount := (operandCount_of_lookup h hl).1
    cases sh with
    | f0 i => simp [decodeInstr, hl]
    | f1 mk => simp [decodeInstr, hl, ha (by rw [hcount, hencodes.1])]
    | f2rr mk =>
      have h2 := hcount.trans hencodes.1
      simp [decodeInstr, hl, ha (by omega), hb h2]
    | f2ri mk =>
      have h2 := hcount.trans hencodes.1
      simp [decodeInstr, hl, ha (by omega), hb h2]

/-- Bytes that decode are read from a sequence they stand at the front of, with the operands announced and no more. -/
theorem decode_of_decodeInstr {c : Config} {ir a b : Byte} {i : Instr} (h : c.wellFormed = true)
    (hd : decodeInstr c ir a b = .ok i) (rest : List Byte) :
    operandCount ir = nops ir ∧ decode c (ir :: ([a, b].take (nops ir) ++ rest)) = .instr i rest := by
  obtain ⟨sh, hl⟩ := lookup_of_decodeInstr hd
  obtain ⟨hcount, hle⟩ := operandCount_of_lookup h hl
  refine ⟨hcount, decode_eq_instr_iff.mpr ⟨?enough, ?same, ?rest⟩⟩
  case enough => simp [hcount, hle]
  case same =>
    rw [← hd]
    refine decodeInstr_congr h (fun h1 => ?_) fun h2 => ?_
    · obtain ⟨n, hn⟩ : ∃ n, nops ir = n + 1 := ⟨nops ir - 1, by omega⟩
      simp [hn]
    · simp [hcount.symm.trans h2]
  case rest =>
    have hlen : nops ir = ([a, b].take (nops ir)).length := by simp [hle]
    rw [hcount, List.drop_append_of_le_length hlen.le, List.drop_of_length_le hlen.ge, List.nil_append]

/-! ### What the decoder accepts and rejects -/

/-- Settles O41: the formats agree, and phase F accepts what R53 allows. -/
theorem decoderAcceptsExactlyWellFormedBytes : Obligations.DecoderAcceptsExactlyWellFormedBytes := by
  intro c ir opA opB
  rw [bytesWellFormed, formatOf_eq_lookupOpcode]
  cases hl : lookupOpcode c ir with
  | none => simp [decodeInstr, hl]
  | some sh =>
    cases sh with
    | f0 i => simp [decodeInstr, hl, Shape.format]
    | f1 mk =>
      rw [Option.map_some, Shape.format, ← decodeReg_isSome]
      cases ha : decodeReg c opA <;> simp [decodeInstr, hl, ha]
    | f2rr mk =>
      rw [Option.map_some, Shape.format, Bool.and_eq_true, ← decodeReg_isSome, ← decodeReg_isSome]
      cases ha : decodeReg c opA <;> cases hb : decodeReg c opB <;> simp [decodeInstr, hl, ha, hb]
    | f2ri mk =>
      rw [Option.map_some, Shape.format, ← decodeReg_isSome]
      cases ha : decodeReg c opA <;> simp [decodeInstr, hl, ha]

/-- The rejection is phase E's exactly on an unrecognized opcode; any other rejection is phase F's, and a legal
parameter set decides whether it records a second operand byte (R75, R76; log 7). -/
theorem decodeInstr_error {c : Config} {ir opA opB : Byte} {r : Reject} (hd : decodeInstr c ir opA opB = .error r) :
    (lookupOpcode c ir = none ∧ r = .unrecognizedOpcode ir) ∨
    (lookupOpcode c ir ≠ none ∧ ∃ o, r = .regIdx ir opA o ∧
      (c.wellFormed = true → o = if nops ir = 2 then some opB else none)) := by
  cases hl : lookupOpcode c ir with
  | none => exact .inl ⟨rfl, by simpa [decodeInstr, hl, eq_comm] using hd⟩
  | some sh =>
    refine .inr ⟨by simp, ?_⟩
    have hencodes (h : c.wellFormed = true) := lookupOpcode_encodes h hl
    cases sh with
    | f0 i => simp [decodeInstr, hl] at hd
    | f1 mk =>
      refine ⟨none, ?_, fun h => by simp [(hencodes h).1]⟩
      cases ha : decodeReg c opA <;> simp_all [decodeInstr]
    | f2rr mk =>
      refine ⟨some opB, ?_, fun h => by simp [(hencodes h).1]⟩
      cases ha : decodeReg c opA <;> cases hb : decodeReg c opB <;> simp_all [decodeInstr]
    | f2ri mk =>
      refine ⟨some opB, ?_, fun h => by simp [(hencodes h).1]⟩
      cases ha : decodeReg c opA <;> simp_all [decodeInstr]

/-- Under `mask3` phase F accepts every byte and gives the register that `fault` gives for its low three bits (R76). -/
theorem decodeReg_mask3 {c : Config} (h : c.regIdxPolicy = .mask3) (b : Byte) :
    ∃ r, decodeReg c b = some r ∧ decodeReg { c with regIdxPolicy := .fault } (b &&& 7#8) = some r := by
  have hlow : ∀ b : Byte, (b &&& 7#8).toNat = b.toNat % 8 := by decide
  exact ⟨_, by rw [decodeReg, h], by simp [decodeReg, hlow, Nat.mod_lt]⟩

/-- Under `mask3` a recognized opcode decodes, to what `fault` gives for the low three bits of its register bytes
(R76). -/
theorem decodeInstr_mask3 {c : Config} {ir : Byte} {f : Format} (h : c.regIdxPolicy = .mask3)
    (hf : formatOf c ir = some f) (opA opB : Byte) : ∃ i, decodeInstr c ir opA opB = .ok i ∧
      decodeInstr { c with regIdxPolicy := .fault } ir (opA &&& 7#8)
        (if f = .f2rr then opB &&& 7#8 else opB) = .ok i := by
  rw [formatOf_eq_lookupOpcode, Option.map_eq_some_iff] at hf
  obtain ⟨sh, hl, rfl⟩ := hf
  have hl' : lookupOpcode { c with regIdxPolicy := .fault } ir = some sh := hl
  obtain ⟨a, ha, ha'⟩ := decodeReg_mask3 h opA
  obtain ⟨b, hb, hb'⟩ := decodeReg_mask3 h opB
  cases sh with
  | f0 i => exact ⟨i, by simp [decodeInstr, hl], by simp [decodeInstr, hl']⟩
  | f1 mk => exact ⟨mk a, by simp [decodeInstr, hl, ha], by simp [decodeInstr, hl', ha']⟩
  | f2rr mk => exact ⟨mk a b, by simp [decodeInstr, hl, ha, hb], by simp [decodeInstr, hl', ha', hb', Shape.format]⟩
  | f2ri mk => exact ⟨mk a opB, by simp [decodeInstr, hl, ha], by simp [decodeInstr, hl', ha', Shape.format]⟩

/-- Settles O42: the fixed values are different by computation, `OPC_ADDI` is none of them, and it announces two
operands, while a byte from 0xC0 up announces three. -/
theorem opcodeTableIsUnambiguous : Obligations.OpcodeTableIsUnambiguous := by
  intro c h
  refine ⟨?nodup, rfl, fun ir hir => ?unused⟩
  case nodup =>
    have hkeys : (opcodeTable c).map (·.1) = ((opcodeTable .default).map (·.1)).dropLast ++ [c.opcAddi] := rfl
    have hperm : ((opcodeTable .default).map (·.1)).dropLast.Perm fixedOpcodes := by decide
    rw [hkeys, (hperm.append_right _).nodup_iff, ← List.concat_eq_append, List.nodup_concat]
    exact ⟨opcAddi_not_fixed h, by decide⟩
  case unused =>
    cases hl : lookupOpcode c ir with
    | none => rfl
    | some sh =>
      have hle := (operandCount_of_lookup h hl).2
      have htop : nops ir = ir.toNat / 64 := by simp [nops, Nat.shiftRight_eq_div_pow]
      omega

/-- Settles O43: each word by running the decoder. -/
theorem sampleWordsDecode : Obligations.SampleWordsDecode := by
  unfold Obligations.SampleWordsDecode
  decide

end Sys2Proof

/-! ### What an instruction can do (40_fetch_decode_cycle.md phases G and H)

`exec_outcome` says once, for all 29 instructions, how each can end and what its handler may have written; the
statements about every instruction and every step are read off it. -/

namespace Sys2Proof.Machine

/-- When an instruction ends the run: HLT, and the two fatal errors raised while executing (R147, R163, R164). -/
def HaltsAt (s : State) (i : Instr) : Prop :=
  i = .hlt ∨ ((∃ a, i = .pop a) ∧ 0xF3 < (s.reg regSP).toNat) ∨ ∃ a b, i = .mod a b ∧ (s.reg b).toNat = 0

/-- `u` is what the handler of `i` may leave of `s` when it completes, before the dispatcher's advance: the writers of
R24. -/
structure HandlerLeaves (i : Instr) (s u : State) : Prop where
  runsOn : ¬ HaltsAt s i
  regs : ∀ r, u.reg r ≠ s.reg r → r ∈ writtenRegs s.cfg i
  pc : u.pc ≠ s.pc → setsPc (opcode s.cfg i) = true ∧ ∀ a, i = .int a → s.cfg.intPcPolicy = .advance2
  fl : u.fl ≠ s.fl → i = .iret ∨ ∃ a b, i = .cmp a b
  mem : u.mem ≠ s.mem → (∃ a b, i = .st a b) ∨ ∃ a, i = .push a ∨ i = .call a
  memWf : s.mem.wf = true → u.mem.wf = true
  out : u.out ≠ s.out → ∃ a, i = .prn a ∨ i = .pra a
  outGrows : ∃ new, u.out = s.out ++ new ∧ new.length ≤ 1
  keepsRun : KeepsRun s u

/-- How the instruction `i` can end in `s`, and the next state it gives. -/
inductive ExecOutcome (s : State) : Instr → State → Prop
  | halt : ExecOutcome s .hlt s.halt
  | underflow (a : Reg) (h : 0xF3 < (s.reg regSP).toNat) : ExecOutcome s (.pop a) (s.fatal .stackUnderflow)
  | divisionByZero (a b : Reg) (h : (s.reg b).toNat = 0) : ExecOutcome s (.mod a b) (s.fatal .divisionByZero)
  | completes {i : Instr} {u : State} (h : HandlerLeaves i s u) : ExecOutcome s i (u.advance (opcode s.cfg i))

/-- A handler that writes nothing. -/
theorem HandlerLeaves.of_same {i : Instr} {s : State} (h : ¬ HaltsAt s i) : HandlerLeaves i s s where
  runsOn := h
  regs _ hr := absurd rfl hr
  pc hp := absurd rfl hp
  fl hf := absurd rfl hf
  mem hm := absurd rfl hm
  memWf := id
  out ho := absurd rfl ho
  outGrows := ⟨[], by simp⟩
  keepsRun := by simp [KeepsRun]

theorem HandlerLeaves.setReg {i : Instr} {s u : State} {a : Reg} (h : HandlerLeaves i s u)
    (ha : a ∈ writtenRegs s.cfg i) (v : Byte) : HandlerLeaves i s (u.setReg a v) where
  __ := h
  regs r hr := by
    by_cases hra : r = a
    · exact hra ▸ ha
    · exact h.regs r (by simpa [hra] using hr)

theorem HandlerLeaves.setPc {i : Instr} {s u : State} (h : HandlerLeaves i s u) (hir : setsPc (opcode s.cfg i) = true)
    (hint : ∀ a, i = .int a → s.cfg.intPcPolicy = .advance2) (p : Addr) : HandlerLeaves i s (u.setPc p) where
  __ := h
  pc _ := ⟨hir, hint⟩

theorem HandlerLeaves.setFl {i : Instr} {s u : State} (h : HandlerLeaves i s u) (hi : i = .iret ∨ ∃ a b, i = .cmp a b)
    (v : Byte) : HandlerLeaves i s (u.setFl v) where
  __ := h
  fl _ := hi

theorem HandlerLeaves.setIe {i : Instr} {s u : State} (h : HandlerLeaves i s u) (b : Bool) :
    HandlerLeaves i s (u.setIe b) where
  __ := h

theorem HandlerLeaves.memWrite {i : Instr} {s u : State} (h : HandlerLeaves i s u)
    (hi : (∃ a b, i = .st a b) ∨ ∃ a, i = .push a ∨ i = .call a) (w : Addr) (v : Byte) :
    HandlerLeaves i s (u.memWrite w v) where
  __ := h
  mem _ := hi
  memWf hs := State.memWrite_wf (h.memWf hs) w v

theorem HandlerLeaves.emit {i : Instr} {s : State} (h : HandlerLeaves i s s) (hi : ∃ a, i = .prn a ∨ i = .pra a)
    (e : OutEvent) : HandlerLeaves i s (s.emit e) where
  __ := h
  out _ := hi
  outGrows := ⟨[e], rfl, le_rfl⟩

theorem HandlerLeaves.pop {i : Instr} {s u : State} (h : HandlerLeaves i s u) (hsp : regSP ∈ writtenRegs s.cfg i) :
    HandlerLeaves i s u.pop.2 :=
  h.setReg hsp _

/-- IRET writes the nine registers, `fl`, `pc` and `ie`, one pop after another (R151). -/
theorem HandlerLeaves.interruptReturn (s : State) : HandlerLeaves .iret s s.interruptReturn := by
  have hall : ∀ r, r ∈ writtenRegs s.cfg .iret := by
    simp only [writtenRegs]
    decide
  have hpop {u : State} (h : HandlerLeaves .iret s u) (a : Reg) : HandlerLeaves .iret s (u.popReg a) :=
    (h.pop (hall _)).setReg (hall a) _
  have hregs := hpop (hpop (hpop (hpop (hpop (hpop (hpop (.of_same (by simp [HaltsAt])) 6) 5) 4) 3) 2) 1) 0
  have hfl : HandlerLeaves .iret s (State.popFl _) := (hregs.pop (hall _)).setFl (.inl rfl) _
  have hpc : HandlerLeaves .iret s (State.popPc _) := (hfl.pop (hall _)).setPc (by simp [opcode, setsPc]) (by simp) _
  exact hpc.setIe true

/-- Every instruction has an outcome in every state, and it is one of these. -/
theorem exec_outcome (i : Instr) (s : State) : ∃ t, exec i s = .next t ∧ ExecOutcome s i t := by
  cases i with
  | hlt => exact ⟨_, rfl, .halt⟩
  | nop => exact ⟨_, rfl, .completes (.of_same (by simp [HaltsAt]))⟩
  | iret => exact ⟨_, rfl, .completes (.interruptReturn s)⟩
  | inc a | dec a | not a | ldi a _ | ld a _ | add a _ | mul a _ | addi a _ | and a _ | or a _ | xor a _ | shl a _
  | shr a _ => exact ⟨_, rfl, .completes (.setReg (.of_same (by simp [HaltsAt])) (.head _) _)⟩
  | jmp | jeq | jne =>
    exact ⟨_, rfl, .completes (.setPc (.of_same (by simp [HaltsAt])) (by simp [opcode, setsPc]) (by simp) _)⟩
  | cmp a b => exact ⟨_, rfl, .completes (.setFl (.of_same (by simp [HaltsAt])) (.inr ⟨a, b, rfl⟩) _)⟩
  | prn a => exact ⟨_, rfl, .completes (.emit (.of_same (by simp [HaltsAt])) ⟨a, .inl rfl⟩ _)⟩
  | pra a => exact ⟨_, rfl, .completes (.emit (.of_same (by simp [HaltsAt])) ⟨a, .inr rfl⟩ _)⟩
  | st a b => exact ⟨_, rfl, .completes (.memWrite (.of_same (by simp [HaltsAt])) (.inl ⟨a, b, rfl⟩) _ _)⟩
  | push a =>
    have hsp := HandlerLeaves.setReg (i := .push a) (s := s) (.of_same (by simp [HaltsAt])) (.head _) s.pushAddr
    exact ⟨_, rfl, .completes (hsp.memWrite (.inr ⟨a, .inl rfl⟩) _ _)⟩
  | call a =>
    have hsp := HandlerLeaves.setReg (i := .call a) (s := s) (.of_same (by simp [HaltsAt])) (.head _) s.pushAddr
    exact ⟨_, rfl, .completes ((hsp.memWrite (.inr ⟨a, .inr rfl⟩) _ _).setPc (by simp [opcode, setsPc]) (by simp) _)⟩
  | ret =>
    have hsame : HandlerLeaves .ret s s := .of_same (by simp [HaltsAt])
    have hpc := hsame.setPc (by simp [opcode, setsPc]) (by simp) s.peek
    refine ⟨_, rfl, .completes ?_⟩
    cases hp : s.cfg.retPops with
    | false => exact hpc
    | true => exact hpc.setReg (by simp [writtenRegs, hp]) _
  | int a =>
    have hreq : HandlerLeaves (.int a) s (s.requestInterrupt (s.regVal a)) := by
      unfold State.requestInterrupt
      split
      · exact .setReg (.of_same (by simp [HaltsAt])) (.head _) _
      · exact .of_same (by simp [HaltsAt])
    change ∃ t, execInt a s = .next t ∧ _
    unfold execInt
    cases hp : s.cfg.intPcPolicy with
    | hold => exact ⟨_, rfl, .completes hreq⟩
    | advance2 => exact ⟨_, rfl, .completes (hreq.setPc (by simp [opcode, setsPc]) (fun _ _ => hp) _)⟩
  | pop a =>
    by_cases h : 0xF3 < (s.reg regSP).toNat
    · exact ⟨_, if_pos h, .underflow a h⟩
    · have hsame : HandlerLeaves (.pop a) s s := .of_same (by simpa [HaltsAt] using h)
      have hsp : regSP ∈ writtenRegs s.cfg (.pop a) := by simp [writtenRegs]
      exact ⟨_, if_neg h, .completes ((hsame.setReg (.head _) _).setReg hsp _)⟩
  | mod a b =>
    by_cases h : (s.reg b).toNat = 0
    · exact ⟨_, exec_mod_of_zero a h, .divisionByZero a b h⟩
    · have hsame : HandlerLeaves (.mod a b) s s := .of_same (by simpa [HaltsAt] using h)
      exact ⟨_, exec_mod_of_ne_zero a h, .completes (hsame.setReg (.head _) _)⟩

theorem ExecOutcome.of_exec {i : Instr} {s t : State} (h : exec i s = .next t) : ExecOutcome s i t := by
  obtain ⟨u, hu, houtcome⟩ := exec_outcome i s
  obtain rfl : t = u := Host.Outcome.next.inj (h.symm.trans hu)
  exact houtcome

end Sys2Proof.Machine

/-! ### The cycle (40_fetch_decode_cycle.md) -/

namespace Sys2Proof.Machine

theorem step_of_halted {s : State} {c : ExitCode} (h : s.run = .halted c) : step s = .next s := by
  simp only [step, h]

/-- A running core executes what its fetch gives (R77). -/
theorem step_of_fetch_ok {s : State} {i : Instr} (h : s.run = .running) (hf : s.beginCycle.fetchDecode = .ok i) :
    step s = exec i s.beginCycle := by
  simp only [step, h, hf]

/-- A running core halts on bytes that are no instruction (R75, R76). -/
theorem step_of_fetch_error {s : State} {r : Reject} (h : s.run = .running)
    (hf : s.beginCycle.fetchDecode = .error r) : step s = .next (s.beginCycle.fatal (.decode r)) := by
  simp only [step, h, hf]

/-- Where the bytes from `pc` on are an encoding, the fetch gives the instruction: a byte the decoder looks at is one of
them. -/
theorem State.fetchDecode_of_encoded {u : State} {i : Instr} (h : u.cfg.wellFormed = true)
    (hbytes : ∀ k (hk : k < (encode u.cfg i).length), u.memRead (u.pc + BitVec.ofNat 8 k) = (encode u.cfg i)[k]) :
    u.fetchDecode = .ok i := by
  have hinverse := decodeInvertsEncode u.cfg i [] h
  rw [List.append_nil] at hinverse
  obtain ⟨hlen, hdecode, -⟩ := decode_eq_instr_iff.mp hinverse
  have hoperand (k : Nat) (hk : k < (operandBytes i).length) :
      u.memRead (u.pc + BitVec.ofNat 8 (k + 1)) = (operandBytes i).getD k 0#8 := by
    rw [hbytes (k + 1) (by simpa [encode] using hk)]
    simp [encode, hk]
  have hopcode : u.memRead u.pc = opcode u.cfg i := by simpa [encode] using hbytes 0 (by simp [encode])
  rw [State.fetchDecode, hopcode, ← hdecode]
  exact decodeInstr_congr h (fun h1 => hoperand 0 (by omega)) fun h2 => hoperand 1 (by omega)

/-- Settles O32: the bytes `decode` looks at are the ones the cycle fetches. -/
theorem stepRunsTheDecodedInstruction : Obligations.StepRunsTheDecodedInstruction := by
  intro s i rest hrun u hd
  obtain ⟨-, hinstr, -⟩ := decode_eq_instr_iff.mp hd
  exact step_of_fetch_ok hrun hinstr

/-- Settles O33: the encoding is what the fetch decodes. -/
theorem stepRunsTheEncodedInstruction : Obligations.StepRunsTheEncodedInstruction := by
  intro s i hrun h u hbytes
  exact step_of_fetch_ok hrun (State.fetchDecode_of_encoded (by simpa [u] using h) hbytes)

/-- Settles O34: the step tests the run state first. -/
theorem haltedCoreIsInert : Obligations.HaltedCoreIsInert := fun _ _ => step_of_halted

/-- Settles O35: a halted core stays, bytes that are no instruction halt the core, and every instruction has an
outcome. -/
theorem stepAlwaysAnswersNext : Obligations.StepAlwaysAnswersNext := by
  intro s
  cases hrun : s.run with
  | halted c => exact ⟨s, step_of_halted hrun⟩
  | running =>
    cases hf : s.beginCycle.fetchDecode with
    | error r => exact ⟨_, step_of_fetch_error hrun hf⟩
    | ok i =>
      obtain ⟨t, ht, -⟩ := exec_outcome i s.beginCycle
      exact ⟨t, (step_of_fetch_ok hrun hf).trans ht⟩

/-! ### What every instruction and every step keeps -/

/-- No instruction halts a running core with code 1: it halts by HLT or by one of two other errors, or runs on. -/
theorem ExecOutcome.run_ne_unrecognized {i : Instr} {s t : State} (h : ExecOutcome s i t) (hs : s.run = .running) :
    t.run ≠ .halted .unrecognizedOpcode := by
  cases h with
  | halt => simp
  | underflow a h => simp [Fatal.code]
  | divisionByZero a b h => simp [Fatal.code]
  | completes h => simp [h.keepsRun.1, hs]

/-- The output after an instruction: at most one event more. -/
theorem ExecOutcome.out_grows {i : Instr} {s t : State} (h : ExecOutcome s i t) :
    ∃ new, t.out = s.out ++ new ∧ new.length ≤ 1 := by
  cases h with
  | halt => exact ⟨[], by simp⟩
  | underflow a h => exact ⟨[], by simp⟩
  | divisionByZero a b h => exact ⟨[], by simp⟩
  | completes h => simpa using h.outGrows

/-- No instruction changes the coming inputs or the parameters. -/
theorem ExecOutcome.keeps_inputs_cfg {i : Instr} {s t : State} (h : ExecOutcome s i t) :
    t.irq0 = s.irq0 ∧ t.inputCount = s.inputCount ∧ t.cfg = s.cfg := by
  cases h with
  | halt => simp
  | underflow a h => simp
  | divisionByZero a b h => simp
  | completes h =>
    obtain ⟨-, -, hirq, hcount, hcfg⟩ := h.keepsRun
    simp [hirq, hcount, hcfg]

/-- Where the opcode leaves `pc` to the dispatcher, `pc` moves by the dispatcher's doing only. -/
theorem HandlerLeaves.advance_pc {i : Instr} {s u : State} (h : HandlerLeaves i s u)
    (hir : setsPc (opcode s.cfg i) = false) :
    (u.advance (opcode s.cfg i)).pc = s.pc + BitVec.ofNat 8 (nops (opcode s.cfg i) + 1) := by
  have hpc : u.pc = s.pc := by
    by_contra hne
    exact absurd (h.pc hne).1 (by simp [hir])
  rw [State.advance_pc_of_not_setsPc hir rfl, hpc]

/-- Settles O31: of the ways an instruction can end, one gives code 3 and one gives code 4. -/
theorem onlyPopAndModRaiseTheirErrors : Obligations.OnlyPopAndModRaiseTheirErrors := by
  intro i s t hs hexec
  cases ExecOutcome.of_exec hexec with
  | halt => simp
  | underflow a h => simpa [Fatal.code] using h
  | divisionByZero a b h => simpa [Fatal.code] using h
  | completes h =>
    have hruns := h.runsOn
    simp only [HaltsAt, not_or] at hruns
    obtain ⟨-, hpop, hmod⟩ := hruns
    simp only [State.advance_run, h.keepsRun.1, hs]
    exact ⟨iff_of_false nofun hpop, iff_of_false nofun hmod⟩

/-- Settles O36: the decoder's own facts, and the dispatcher's advance of an instruction that completes. -/
theorem operandCountGivesBytesAndAdvance : Obligations.OperandCountGivesBytesAndAdvance := by
  refine ⟨fun c ir a b a' b' => decodeInstr_congr, fun c ir a b rest i h hd => decode_of_decodeInstr h hd rest, ?_⟩
  intro i s t _ hs hexec ht hir
  cases ExecOutcome.of_exec hexec with
  | halt => simp at ht
  | underflow a h => simp at ht
  | divisionByZero a b h => simp at ht
  | completes h => exact h.advance_pc hir

/-- Settles O38: phases A and B emit nothing, and an instruction emits at most one event. -/
theorem outputIsAppendOnly : Obligations.OutputIsAppendOnly := by
  intro s t hstep
  obtain ⟨-, rfl⟩ | ⟨-, i, -, hexec⟩ | ⟨-, r, -, rfl⟩ := step_cases hstep
  · exact ⟨⟨[], by simp⟩, rfl⟩
  · have houtcome := ExecOutcome.of_exec hexec
    exact ⟨by simpa using houtcome.out_grows, by simpa using houtcome.keeps_inputs_cfg.2.2⟩
  · exact ⟨⟨[], by simp⟩, by simp⟩

/-! ### The invariant -/

theorem haltExplained_of_running {s : State} (h : s.run = .running) : HaltExplained s ↔ s.diag = none := by
  simp only [HaltExplained, h]

/-- A fatal error whose cause holds explains the halt: `pc` and memory still show the cause (R161). -/
theorem State.Inv.fatal {s : State} {f : Fatal} (h : s.Inv) (hcause : FatalCause s f) : (s.fatal f).Inv := by
  obtain ⟨hmem, hcfg, -⟩ := h
  have hcause' : FatalCause (s.fatal f) f := by cases f <;> exact hcause
  exact ⟨hmem, hcfg, rfl, hcause'⟩

theorem State.Inv.beginCycle {s : State} (h : s.Inv) (hrun : s.run = .running) : s.beginCycle.Inv := by
  obtain ⟨hmem, hcfg, hhalt⟩ := h
  have hdiag := (haltExplained_of_running hrun).mp hhalt
  refine ⟨State.beginCycle_wf hmem, by simpa using hcfg, ?_⟩
  exact (haltExplained_of_running (by simpa using hrun)).mpr (by simpa using hdiag)

/-- Executing what the fetch gives keeps the invariant: where it halts the core, the instruction fetched is the
cause. -/
theorem State.Inv.exec {s t : State} {i : Instr} (h : s.Inv) (hrun : s.run = .running) (hf : s.fetchDecode = .ok i)
    (hexec : exec i s = .next t) : t.Inv := by
  have hdiag := (haltExplained_of_running hrun).mp h.2.2
  cases ExecOutcome.of_exec hexec with
  | halt =>
    refine ⟨h.1, h.2.1, ?_⟩
    simp only [HaltExplained, State.halt_run, State.halt_diag, hdiag]
    exact ⟨trivial, hf⟩
  | underflow a hsp => exact h.fatal ⟨⟨a, hf⟩, hsp⟩
  | divisionByZero a b hb => exact h.fatal ⟨a, b, hf, hb⟩
  | completes hleaves =>
    obtain ⟨hrun', hdiag', -, -, hcfg'⟩ := hleaves.keepsRun
    refine ⟨by simpa using hleaves.memWf h.1, by simpa [hcfg'] using h.2.1, ?_⟩
    exact (haltExplained_of_running (by simp [hrun', hrun])).mpr (by simp [hdiag', hdiag])

/-- Settles O48: phases A and B keep the invariant, and then so do the instruction fetched and the halt on bytes
that are none. -/
theorem stepKeepsInvariant : Obligations.StepKeepsInvariant := by
  intro s t h hstep
  obtain ⟨-, rfl⟩ | ⟨hrun, i, hf, hexec⟩ | ⟨hrun, r, hf, rfl⟩ := step_cases hstep
  · exact h
  · exact (h.beginCycle hrun).exec (by simpa using hrun) hf hexec
  · exact (h.beginCycle hrun).fatal hf

/-! ### Who writes what (10_state.md section 7) -/

/-- What an instruction changes, by kind of state (R24). -/
theorem ExecOutcome.writers {i : Instr} {s t : State} (h : ExecOutcome s i t) :
    (∀ r, t.reg r ≠ s.reg r → r ∈ writtenRegs s.cfg i) ∧
    (t.pc ≠ s.pc → i ≠ .hlt ∧ (∀ a, i = .int a → s.cfg.intPcPolicy = .advance2) ∧ t.run = s.run ∧ t.diag = s.diag) ∧
    (t.fl ≠ s.fl → i = .iret ∨ ∃ a b, i = .cmp a b) ∧
    (t.mem ≠ s.mem → (∃ a b, i = .st a b) ∨ ∃ a, i = .push a ∨ i = .call a) ∧
    (t.out ≠ s.out → ∃ a, i = .prn a ∨ i = .pra a) ∧
    (t.run ≠ s.run → i = .hlt ∨ (∃ a, i = .pop a) ∨ ∃ a b, i = .mod a b) ∧
    (t.diag ≠ s.diag → (∃ a, i = .pop a) ∨ ∃ a b, i = .mod a b) := by
  cases h with
  | halt => simp
  | underflow a h => simp
  | divisionByZero a b h => simp
  | completes h =>
    obtain ⟨hrun, hdiag, -, -, -⟩ := h.keepsRun
    have hhlt : i ≠ .hlt := fun hi => h.runsOn (.inl hi)
    refine ⟨by simpa using h.regs, fun hpc => ⟨hhlt, ?intPolicy, by simp [hrun], by simp [hdiag]⟩, by simpa using h.fl,
      by simpa using h.mem, by simpa using h.out, by simp [hrun], by simp [hdiag]⟩
    case intPolicy =>
      rintro a rfl
      rw [State.advance_of_setsPc (by simp [opcode, setsPc])] at hpc
      exact (h.pc hpc).2 a rfl

/-- What phases A and B change: IS by the latch, and where an interrupt is taken what its entry writes. -/
theorem State.beginCycle_writers (s : State) :
    (∀ r, s.beginCycle.reg r ≠ s.reg r → r = regIS ∨ (r = regSP ∧ s.latchRequest.takenInterrupt ≠ none)) ∧
    (s.beginCycle.pc ≠ s.pc ∨ s.beginCycle.ie ≠ s.ie ∨ s.beginCycle.mem ≠ s.mem →
      s.latchRequest.takenInterrupt ≠ none) ∧
    s.beginCycle.fl = s.fl ∧ s.beginCycle.irq0 = s.irq0.tail ∧ s.beginCycle.inputCount = s.inputCount + 1 := by
  have hlatch (r : Reg) (hr : r ≠ regIS) : s.latchRequest.reg r = s.reg r := by
    rw [State.latchRequest_reg, if_neg fun h => hr h.1]
  obtain ⟨i, htaken, hcheck⟩ | ⟨htaken, hcheck⟩ := s.latchRequest.interruptCheck_cases
  · simp only [State.beginCycle, hcheck, htaken]
    refine ⟨fun r hr => ?_, by simp, by simp, by simp, by simp⟩
    by_contra hother
    simp only [not_or, ne_eq, reduceCtorEq, not_false_eq_true, and_true] at hother
    rw [State.interruptEntry_reg, if_neg hother.2, if_neg hother.1] at hr
    exact hr (hlatch r hother.1)
  · simp only [State.beginCycle, hcheck, htaken]
    refine ⟨fun r hr => .inl ?_, by simp, by simp, by simp, by simp⟩
    by_contra hother
    exact hr (hlatch r hother)

/-- Settles O37: the writers among the instructions, `ie` from its own section, and those of phases A and B. -/
theorem onlyTheListedWritersWrite : Obligations.OnlyTheListedWritersWrite := by
  refine ⟨fun i s t hexec => ?_, fun s => ?_⟩
  · have houtcome := ExecOutcome.of_exec hexec
    obtain ⟨hregs, hpc, hfl, hmem, hout, hrun, hdiag⟩ := houtcome.writers
    have hie : t.ie ≠ s.ie → i = .iret := fun hne => by
      by_contra hi
      exact hne ((exec_ignoresIe hi).keeps_ie hexec)
    exact ⟨hregs, hpc, hfl, hie, hmem, hout, hrun, hdiag, houtcome.keeps_inputs_cfg⟩
  · obtain ⟨hregs, hentry, hfl, hirq, hcount⟩ := s.beginCycle_writers
    exact ⟨hregs, hentry, hfl, s.beginCycle_run, s.beginCycle_out, s.beginCycle_diag, hirq, hcount, s.beginCycle_cfg⟩

/-! ### Fatal errors of the fetch (60_exceptions.md section 1) -/

/-- Settles O29: phase E rejects exactly the bytes that are no opcode, and no other way to end a cycle has code 1. -/
theorem unrecognizedOpcodeHaltsWithCodeOne : Obligations.UnrecognizedOpcodeHaltsWithCodeOne := by
  intro s hrun u ir
  rw [← lookupOpcode_none]
  refine ⟨fun hnone => ?halts, fun t hstep ht => ?only, rfl⟩
  case halts =>
    have hf : u.fetchDecode = .error (.unrecognizedOpcode ir) := by
      simp only [State.fetchDecode, decodeInstr]
      rw [hnone]
    exact ⟨_, step_of_fetch_error hrun hf, .of_fatal _ u⟩
  case only =>
    obtain ⟨⟨c, hc⟩, -⟩ | ⟨-, i, -, hexec⟩ | ⟨-, r, hf, rfl⟩ := step_cases hstep
    · simp [hrun] at hc
    · exact absurd ht ((ExecOutcome.of_exec hexec).run_ne_unrecognized (by simpa using hrun))
    · obtain ⟨hnone, -⟩ | ⟨-, o, rfl, -⟩ := decodeInstr_error hf
      · exact hnone
      · simp [Fatal.code] at ht

/-- Settles O30: the bytes are not accepted, their opcode is recognized, so the rejection is phase F's. -/
theorem registerNumberCheck : Obligations.RegisterNumberCheck := by
  intro s hrun h u ir opA opB
  refine ⟨fun f hformat hbad => ?faults, fun f hmask hformat => decodeInstr_mask3 hmask hformat opA opB, rfl⟩
  case faults =>
    cases hf : u.fetchDecode with
    | ok i =>
      have hgood := (decoderAcceptsExactlyWellFormedBytes u.cfg ir opA opB).mp ⟨i, hf⟩
      simp [hgood] at hbad
    | error r =>
      obtain ⟨hnone, -⟩ | ⟨-, o, rfl, ho⟩ := decodeInstr_error hf
      · rw [formatOf_eq_lookupOpcode] at hformat
        simp [ir, hnone] at hformat
      · have hcfg : u.cfg.wellFormed = true := by simpa [u] using h
        rw [ho hcfg] at hf
        exact ⟨_, step_of_fetch_error hrun hf, .of_fatal _ u⟩

end Sys2Proof.Machine

/-! ### ADDI, the shifts and CMP (41_alu.md) -/

namespace Sys2Proof.Machine

/-- R107: from 8 on the amount shifts every bit out of the byte. -/
theorem aluShl_of_eight_le (p : Nat) {q : Nat} (hq : 8 ≤ q) : aluShl p q = 0#8 := by
  have hdvd : 256 ∣ p * 2 ^ q := Dvd.dvd.mul_left (pow_dvd_pow 2 hq) p
  exact BitVec.eq_of_toNat_eq ((aluShl_toNat p q).trans (Nat.mod_eq_zero_of_dvd hdvd))

/-- R108: the quotient of a byte is a byte, so `trunc8` does not change it. -/
theorem aluShr_toNat_of_byte (p : Byte) (q : Nat) : (aluShr p.toNat q).toNat = p.toNat / 2 ^ q := by
  rw [aluShr_toNat, Nat.mod_eq_of_lt ((Nat.div_le_self _ _).trans_lt p.isLt)]

/-- R108: from 8 on the amount shifts every bit out of the byte. -/
theorem aluShr_of_eight_le (p : Byte) {q : Nat} (hq : 8 ≤ q) : aluShr p.toNat q = 0#8 := by
  have hlt : p.toNat < 2 ^ q := p.isLt.trans_le (Nat.pow_le_pow_right (by decide) hq)
  exact BitVec.eq_of_toNat_eq ((aluShr_toNat_of_byte p q).trans (Nat.div_eq_of_lt hlt))

/-- Settles O2: a legal `OPC_ADDI` announces two operands and leaves `pc` to the dispatcher. -/
theorem addiAddsImmediateModulo256 : Obligations.AddiAddsImmediateModulo256 := by
  intro s a imm h
  exact ⟨.of_setReg rfl (setsPc_opcAddi h) (congrArg (· + 1) (nops_opcAddi h)) (aluAdd_toNat _ _), rfl, rfl⟩

/-- Settles O4: each writes `trunc8` of an unbounded result. -/
theorem shiftsUseTheWholeAmount : Obligations.ShiftsUseTheWholeAmount := by
  intro s a b
  refine ⟨?shl, ?shr, rfl, rfl⟩
  case shl => exact .of_setReg (ir := 0xAC#8) rfl rfl (by decide) ⟨aluShl_toNat _ _, aluShl_of_eight_le _⟩
  case shr => exact .of_setReg (ir := 0xAD#8) rfl rfl (by decide) ⟨aluShr_toNat_of_byte _ _, aluShr_of_eight_le _⟩

/-- R113: of the three unsigned comparisons exactly one holds. -/
theorem comparisons_exactly_one (p q : Nat) :
    (decide (p = q)).toNat + (decide (p > q)).toNat + (decide (p < q)).toNat = 1 := by
  obtain h | h | h := lt_trichotomy p q
  · simp [h, h.ne, h.le]
  · simp [h]
  · simp [h, h.ne', h.le]

/-- Settles O6: CMP writes `cmpFlags` to `fl`, and its opcode leaves `pc` to the dispatcher. -/
theorem cmpSetsExactlyOneFlag : Obligations.CmpSetsExactlyOneFlag := by
  intro s a b
  have hexec : exec (.cmp a b) s = .next ((s.setFl (cmpFlags s.fl (s.reg a) (s.reg b))).advance 0xA7#8) := rfl
  obtain ⟨hE, hG, hL, hkept⟩ := cmpFlags_bits s.fl (s.reg a) (s.reg b)
  rw [flagE] at hE
  rw [flagG] at hG
  rw [flagL] at hL
  refine ⟨_, hexec, ?e, ?g, ?l, ?one, by simpa using hkept, fun r _ => by simp, ?pc, by simp, fun w => by simp, by simp,
    by simp [KeepsRun], rfl⟩
  case e => rw [State.advance_fl, State.setFl_fl, hE, decide_eq_true_iff]
  case g => rw [State.advance_fl, State.setFl_fl, hG, decide_eq_true_iff]
  case l => rw [State.advance_fl, State.setFl_fl, hL, decide_eq_true_iff]
  case one =>
    rw [State.advance_fl, State.setFl_fl, hE, hG, hL]
    exact comparisons_exactly_one _ _
  case pc => exact State.advance_pc_of_not_setsPc rfl (by decide)

/-! ### The stack, CALL and RET (43_stack.md, 42_control_flow.md section 3)

PUSH and CALL are `State.push` of a value, so `State.push_memRead` gives their memory; the two compositions below are
read off the statements about the single instructions. -/

/-- R133: `x[a]` is read after the decrement, so PUSH R7 pushes the decremented SP (D17). -/
theorem exec_push (s : State) (a : Reg) : exec (.push a) s =
    .next ((s.push (if a = regSP then s.pushAddr else s.reg a)).advance 0x45#8) := by
  change execPush a s = _
  simp [execPush, State.push, State.pushAddr, opcode]

/-- R124: the target is read after the push, so CALL R7 jumps to the decremented SP (D17). -/
theorem exec_call (s : State) (a : Reg) : exec (.call a) s =
    .next ((s.push s.pastOperand).setPc (if a = regSP then s.pushAddr else s.reg a)) := by
  change execCall a s = _
  simp [execCall, State.branchTarget, State.pushAddr, opcode, State.advance_of_setsPc (ir := 0x50#8) rfl]

/-- R125: SP moves only under `RET_POPS` (D6). -/
theorem exec_ret (s : State) : exec .ret s = .next (if s.cfg.retPops then
    (s.setPc s.peek).setReg regSP (s.reg regSP + 1#8) else s.setPc s.peek) := by
  change execRet s = _
  cases h : s.cfg.retPops <;> simp [execRet, h, opcode, State.advance_of_setsPc (ir := 0x11#8) rfl]

/-- R134, R163: the underflow test comes first. -/
theorem exec_pop_of_underflow {s : State} (a : Reg) (h : 0xF3 < (s.reg regSP).toNat) :
    exec (.pop a) s = .next (s.fatal .stackUnderflow) :=
  if_pos h

/-- R134: the increment reads the SP the load left, so POP R7 ends with the loaded byte plus 1 (D17). -/
theorem exec_pop_of_le {s : State} (a : Reg) (h : (s.reg regSP).toNat ≤ 0xF3) :
    exec (.pop a) s = .next (((s.setReg a s.peek).setReg regSP ((s.setReg a s.peek).reg regSP + 1#8)).advance 0x46#8) :=
  if_neg (Nat.not_lt.mpr h)

/-- Settles O11: one push, then the dispatcher's advance. -/
theorem pushStoresBelowSp : Obligations.PushStoresBelowSp := by
  intro s a hwf
  refine ⟨_, exec_push s a, by simp, fun r hr => ?regs, ?stored, fun w hw => ?otherBytes,
    State.advance_pc_of_not_setsPc rfl (by decide), by simp, by simp, by simp, by simp [KeepsRun], rfl⟩
  case regs => simp [show r ≠ 7 by simpa using hr]
  case stored =>
    rw [State.advance_memRead, State.push_memRead hwf]
    exact if_pos rfl
  case otherBytes =>
    rw [State.advance_memRead, State.push_memRead hwf]
    exact if_neg hw

/-- Settles O8: one push of the return address, then the jump. -/
theorem callPushesReturnAddressAndJumps : Obligations.CallPushesReturnAddressAndJumps := by
  intro s a hwf
  refine ⟨_, exec_call s a, by simp, fun r hr => ?regs, ?stored, fun w hw => ?otherBytes, rfl, rfl, rfl, rfl,
    by simp [KeepsRun], rfl⟩
  case regs => simp [show r ≠ 7 by simpa using hr]
  case stored =>
    rw [State.setPc_memRead, State.push_memRead hwf]
    exact if_pos rfl
  case otherBytes =>
    rw [State.setPc_memRead, State.push_memRead hwf]
    exact if_neg hw

/-- Settles O9: the two values of `RET_POPS`. -/
theorem retPeeksUnlessRetPops : Obligations.RetPeeksUnlessRetPops := by
  intro s
  refine ⟨_, exec_ret s, ?_⟩
  cases hpops : s.cfg.retPops with
  | false => exact ⟨rfl, rfl, fun _ _ => rfl, ⟨rfl, rfl, fun _ => rfl, rfl, rfl, rfl, rfl, rfl, rfl⟩, rfl⟩
  | true =>
    refine ⟨rfl, by simp, fun r hr => ?regs, ⟨rfl, rfl, fun _ => rfl, rfl, rfl, rfl, rfl, rfl, rfl⟩, rfl⟩
    case regs => simp [show r ≠ 7 by simpa using hr]

/-- Settles O10: RET reads back the byte CALL stored at the SP it left. -/
theorem retAfterCallReturnsPastIt : Obligations.RetAfterCallReturnsPastIt := by
  intro s t a hwf hcall
  obtain ⟨t', ht', hsp, hregs, hstored, -, -, -, -, -, ⟨-, -, -, -, hcfg⟩, -⟩ := callPushesReturnAddressAndJumps s a hwf
  obtain rfl : t = t' := Host.Outcome.next.inj (hcall.symm.trans ht')
  obtain ⟨u, hu, hpc, husp, huregs, -⟩ := retPeeksUnlessRetPops t
  refine ⟨u, hu, ?pc, ?sp, fun r hr => (huregs r hr).trans (hregs r hr)⟩
  case pc => rw [hpc, hsp, ← hstored, State.pushAddr]
  case sp => simp [husp, hcfg, hsp]

/-- Settles O12: the two branches of the underflow test. -/
theorem popLoadsOrUnderflows : Obligations.PopLoadsOrUnderflows := by
  intro s a
  refine ⟨fun hsp => ?loads, fun hsp => ⟨_, exec_pop_of_underflow a hsp, .of_fatal _ s⟩, rfl, rfl⟩
  case loads =>
    refine ⟨_, exec_pop_of_le a hsp, fun ha => ?other, ?sp, fun r hr => ?regs,
      State.advance_pc_of_not_setsPc rfl (by decide), by simp, by simp, fun w => by simp, by simp, by simp [KeepsRun]⟩
    case other => simp [ha, Ne.symm ha, State.peek]
    case sp =>
      rintro rfl
      simp [State.peek]
    case regs =>
      obtain ⟨hra, hrsp⟩ : r ≠ a ∧ r ≠ 7 := by simpa using hr
      simp [hra, hrsp]

/-- Settles O13: below the underflow bound POP loads the byte PUSH stored and raises SP back. -/
theorem pushThenPopRestores : Obligations.PushThenPopRestores := by
  intro s a hwf hlow hhigh
  obtain ⟨t, ht, htsp, htregs, hstored, htmem, htpc, -⟩ := pushStoresBelowSp s a hwf
  have hbound : (t.reg regSP).toNat ≤ 0xF3 := by
    rw [htsp]
    bv_omega
  obtain ⟨u, hu, hother, hsame, huregs, hupc, -, -, humem, -⟩ := (popLoadsOrUnderflows t a).1 hbound
  have hload : t.memRead (t.reg regSP) = if a = regSP then s.reg regSP - 1#8 else s.reg a :=
    (congrArg t.memRead htsp).trans hstored
  have hback : s.reg regSP - 1#8 + 1#8 = s.reg regSP := by simp
  refine ⟨t, u, ht, hu, fun r _ => ?regs, humem _, fun w hw => (humem w).trans (htmem w hw), ?pc⟩
  case regs =>
    by_cases ha : a = regSP
    · by_cases hr : r = regSP
      · rw [hr, hsame ha, hload, if_pos ha, hback]
      · rw [huregs r (by simp [ha, hr]), htregs r (by simp [hr])]
    · obtain ⟨hua, husp⟩ := hother ha
      by_cases hr : r = regSP
      · rw [hr, husp, htsp, hback]
      · by_cases hra : r = a
        · rw [hra, hua, hload, if_neg ha]
        · rw [huregs r (by simp [hra, hr]), htregs r (by simp [hr])]
  case pc =>
    rw [hupc, htpc, BitVec.add_assoc]
    rfl

/-! ### Output and HLT (44_data_output_system.md) -/

/-- An event adds its text to the output's. -/
theorem State.outText_of_append {s t : State} {e : OutEvent} (h : t.out = s.out ++ [e]) :
    t.outText = s.outText ++ e.render := by
  simp [State.outText, h]

/-- Settles O16: PRN emits one event and leaves `pc` to the dispatcher. -/
theorem prnEmitsDecimalLine : Obligations.PrnEmitsDecimalLine := by
  intro s a
  have hexec : exec (.prn a) s = .next ((s.emit (.prn (s.reg a))).advance 0x47#8) := rfl
  have hout : ((s.emit (.prn (s.reg a))).advance 0x47#8).out = s.out ++ [.prn (s.reg a)] := by simp
  refine ⟨_, hexec, hout, ?text, State.advance_pc_of_not_setsPc rfl (by decide), fun r _ => by simp, by simp, by simp,
    fun w => by simp, by simp [KeepsRun], rfl⟩
  case text => rw [State.outText_of_append hout, OutEvent.render, List.append_assoc]

/-- Settles O17: every byte is a code point. -/
theorem praEmitsOneCharacter : Obligations.PraEmitsOneCharacter := by
  intro s a
  have hexec : exec (.pra a) s = .next ((s.emit (.pra (s.reg a))).advance 0x48#8) := rfl
  have hout : ((s.emit (.pra (s.reg a))).advance 0x48#8).out = s.out ++ [.pra (s.reg a)] := by simp
  have hchar : ∀ v : Byte, (Char.ofNat v.toNat).toNat = v.toNat := by decide
  exact ⟨_, hexec, hout, ⟨_, hchar (s.reg a), State.outText_of_append hout⟩,
    State.advance_pc_of_not_setsPc rfl (by decide), fun r _ => by simp, by simp, by simp, fun w => by simp,
    by simp [KeepsRun], rfl⟩

/-- Settles O19: the next state is `State.halt` of this one. -/
theorem hltHaltsWithCodeZero : Obligations.HltHaltsWithCodeZero := fun s =>
  have hexec : exec .hlt s = .next s.halt := rfl
  ⟨_, hexec, rfl, rfl, rfl, fun _ _ => rfl, rfl, rfl, fun _ => rfl, rfl, rfl, rfl, rfl, rfl, rfl⟩

end Sys2Proof.Machine

/-! ### INT and IRET (45_interrupt_instructions.md)

Bit 4 of both opcodes is 1, so the dispatcher adds nothing to what the handler does. -/

namespace Sys2Proof.Machine

theorem exec_int_of_hold {s : State} (a : Reg) (h : s.cfg.intPcPolicy = .hold) :
    exec (.int a) s = .next (s.requestInterrupt (s.regVal a)) := by
  change execInt a s = _
  simp [execInt, h, opcode, State.advance_of_setsPc (ir := 0x52#8) rfl]

theorem exec_int_of_advance2 {s : State} (a : Reg) (h : s.cfg.intPcPolicy = .advance2) :
    exec (.int a) s = .next ((s.requestInterrupt (s.regVal a)).setPc s.pastOperand) := by
  change execInt a s = _
  simp [execInt, h, opcode, State.advance_of_setsPc (ir := 0x52#8) rfl]

theorem exec_iret (s : State) : exec .iret s = .next s.interruptReturn :=
  congrArg Host.Outcome.next (State.advance_of_setsPc (ir := 0x13#8) rfl)

@[simp] theorem State.interruptReturn_memRead (s : State) (a : Addr) : s.interruptReturn.memRead a = s.memRead a := by
  simp [State.memRead]

/-- Settles O20: one request, and `pc` by `INT_PC_POLICY`. -/
theorem intRequestsOneInterrupt : Obligations.IntRequestsOneInterrupt := by
  intro s a
  have hbits (k : Nat) (hk : k < 8) : ((s.requestInterrupt (s.regVal a)).reg regIS).getLsbD k = true ↔
      (s.reg regIS).getLsbD k = true ∨ s.regVal a = k := by
    rw [State.requestInterrupt_bit s _ hk, Bool.or_eq_true, decide_eq_true_iff]
  have hregs : KeepsRegsBut [regIS] s (s.requestInterrupt (s.regVal a)) := fun r hr => by
    rw [State.requestInterrupt_reg, if_neg fun h => hr (by simp [h.1])]
  have hrest : KeepsAllButRegsPc s (s.requestInterrupt (s.regVal a)) :=
    ⟨by simp, by simp, fun w => by simp, by simp, by simp [KeepsRun]⟩
  cases hp : s.cfg.intPcPolicy with
  | hold => exact ⟨_, exec_int_of_hold a hp, hbits, hregs, fun _ => by simp, nofun, hrest, rfl⟩
  | advance2 => exact ⟨_, exec_int_of_advance2 a hp, hbits, hregs, nofun, fun _ => rfl, hrest, rfl⟩

/-- Settles O21: IRET is the return from an interrupt. -/
theorem iretRestoresNineBytes : Obligations.IretRestoresNineBytes := by
  intro s
  have hreg := s.interruptReturn_reg
  exact ⟨_, exec_iret s, hreg 6, hreg 5, hreg 4, hreg 3, hreg 2, hreg 1, hreg 0, by simp, by simp, hreg 7, by simp,
    fun w => by simp, by simp, by simp [KeepsRun], rfl⟩

/-! ### The request latch, interrupt entry and the round trip (60_exceptions.md sections 3 to 5) -/

/-- With interrupts off phase B takes none. -/
theorem State.takenInterrupt_of_disabled {s : State} (h : s.ie = false) : s.takenInterrupt = none :=
  if_neg (by simp [h])

/-- Settles O24: the latch writes bit 0 of IS and uses one input up. -/
theorem requestLatchSetsBitZero : Obligations.RequestLatchSetsBitZero := by
  intro s
  refine ⟨fun k hk => ?bits, fun r hr => ?regs, rfl, rfl, rfl, rfl, fun _ => rfl, rfl, rfl, rfl, rfl, rfl,
    fun hie => ?disabled⟩
  case bits =>
    rw [State.latchRequest_reg, ← State.irq0Req_iff]
    have hbit : ∀ k : Fin 8, (0x01#8).getLsbD k.val = decide (k.val = 0) := by decide
    by_cases hreq : s.irq0Req = true
    · simp only [hreq, and_self, if_true, BitVec.getLsbD_or, hbit ⟨k, hk⟩, Bool.or_eq_true, decide_eq_true_iff,
        and_true]
    · simp [hreq]
  case regs => rw [State.latchRequest_reg, if_neg fun h => hr (by simp [h.1])]
  case disabled => exact State.interruptCheck_of_not_taken (State.takenInterrupt_of_disabled (by simpa using hie))

/-- The handler's address is read after the pushes (R171). -/
theorem State.interruptEntry_pc (s : State) (i : Fin 8) :
    (s.interruptEntry i).pc = (s.interruptEntry i).memRead (vectorAddr i) := rfl

/-- Settles O22: an address is in the frame exactly where it is one of the nine below SP, and the frame's bytes are at
different addresses. -/
theorem interruptEntrySavesAndVectors : Obligations.InterruptEntrySavesAndVectors := by
  intro s i hwf t sp
  have hread := State.interruptEntry_memRead hwf i
  have hreg := s.interruptEntry_reg i
  refine ⟨rfl, by simp [t, sp, hreg], fun r hr => ?regs, fun k => ?isBits, ?_, ?_, ?_, ?_, ?_, ?_, ?_, ?_, ?_,
    fun a ha => ?otherBytes, s.interruptEntry_pc i, rfl, rfl, by simp [t, KeepsRun]⟩
  case regs =>
    obtain ⟨h6, h7⟩ : r ≠ 6 ∧ r ≠ 7 := by simpa using hr
    simp [t, hreg, h6, h7]
  case isBits =>
    have his : t.reg regIS = s.reg 6 &&& ~~~(1#8 <<< i.val) := hreg 6
    rw [his, State.clearBit]
  case otherBytes =>
    have hne (k : Byte) (h1 : 1 ≤ k.toNat) (h9 : k.toNat ≤ 9) : a ≠ s.reg 7 - k := by
      change 9 < (s.reg 7 - a).toNat ∨ a = s.reg 7 at ha
      rintro rfl
      bv_omega
    simp [t, hread, hne 1#8, hne 2#8, hne 3#8, hne 4#8, hne 5#8, hne 6#8, hne 7#8, hne 8#8, hne 9#8]
  -- The nine bytes of the frame, in the order of the statement.
  all_goals simp [t, sp, hread]

/-- Settles O25: SP of the entry and byte `k` of its frame are where IRET reads, and the entry's own statement says what
they hold. -/
theorem interruptRoundTripRestores : Obligations.InterruptRoundTripRestores := by
  intro s t i hwf hsp hframe
  obtain ⟨-, hentrySp, -, hisBits, hpc, hfl, h0, h1, h2, h3, h4, h5, h6, -⟩ := interruptEntrySavesAndVectors s i hwf
  have htsp : t.reg regSP = s.reg regSP - 9#8 := hsp.trans hentrySp
  have hbyte (k j : Nat) (h : k + j = 9) (hj : j ≠ 0) : t.memRead (t.reg regSP + BitVec.ofNat 8 k) =
      (s.interruptEntry i).memRead (s.reg regSP - BitVec.ofNat 8 j) := by
    have haddr : s.reg regSP - 9#8 + BitVec.ofNat 8 k = s.reg regSP - BitVec.ofNat 8 j := by bv_omega
    rw [hframe k (by omega), htsp, haddr]
  have htop : t.memRead (t.reg regSP) = (s.interruptEntry i).reg 6 := by simpa [h6] using hbyte 0 9 rfl (by decide)
  have hreg := t.interruptReturn_reg
  refine ⟨_, exec_iret t, fun r hr => ?regs, ?isBits, ?fl, ?pc, by simp, fun w => by simp, by simp, by simp [KeepsRun]⟩
  case regs =>
    match r with
    | 0 => exact (hreg 0).trans ((hbyte 6 3 rfl (by decide)).trans h0)
    | 1 => exact (hreg 1).trans ((hbyte 5 4 rfl (by decide)).trans h1)
    | 2 => exact (hreg 2).trans ((hbyte 4 5 rfl (by decide)).trans h2)
    | 3 => exact (hreg 3).trans ((hbyte 3 6 rfl (by decide)).trans h3)
    | 4 => exact (hreg 4).trans ((hbyte 2 7 rfl (by decide)).trans h4)
    | 5 => exact (hreg 5).trans ((hbyte 1 8 rfl (by decide)).trans h5)
    | 6 => exact absurd rfl hr
    | 7 => exact (hreg 7).trans (by rw [htsp, BitVec.sub_add_cancel])
  case isBits =>
    have his : t.interruptReturn.reg regIS = (s.interruptEntry i).reg regIS := (hreg 6).trans htop
    rw [his]
    exact hisBits
  case fl => exact t.interruptReturn_fl.trans ((hbyte 7 2 rfl (by decide)).trans hfl)
  case pc => exact t.interruptReturn_pc.trans ((hbyte 8 1 rfl (by decide)).trans hpc)

/-- Settles O26: phase B enters the interrupt, and the fetch is the handler's; the frame is that of the entry. -/
theorem takenInterruptRunsHandlerFirst : Obligations.TakenInterruptRunsHandlerFirst := by
  intro s i j hrun hwf htaken hfetch
  have hbegin : s.beginCycle = s.latchRequest.interruptEntry i := State.interruptCheck_of_taken htaken
  obtain ⟨-, -, -, -, hsaved, -⟩ := interruptEntrySavesAndVectors s.latchRequest i hwf
  refine ⟨?runs, ?saved⟩
  case runs =>
    rw [← hbegin] at hfetch ⊢
    exact step_of_fetch_ok hrun hfetch
  case saved =>
    have hsp : s.latchRequest.reg regSP = s.reg regSP := by
      rw [State.latchRequest_reg, if_neg fun h => absurd h.1 (by decide)]
    rw [hsp] at hsaved
    exact hsaved

end Sys2Proof.Machine

/-! ### Reset and load (70_reset_and_hazards.md section 1) -/

namespace Sys2Proof.Machine

theorem State.resetState_reg (c : Config) (image : List Byte) (r : Reg) :
    (State.resetState c image).reg r = if r = 7 then 0xF4#8 else c.gprReset := by
  fin_cases r <;> rfl

/-- The memory of a reset state reads as the image and zeros beyond it (R192). -/
theorem State.resetState_memRead (c : Config) (image : List Byte) (a : Addr) :
    (State.resetState c image).memRead a = image.getD a.toNat 0#8 := by
  rw [State.memRead, State.resetState, Memory.ofImage_read]
  rfl

/-- Reset gives a state of the invariant, whatever inputs are to come. -/
theorem State.resetState_inv {c : Config} {image : List Byte} (hc : c.wellFormed = true) (hlen : image.length ≤ 256)
    (s : State) : (State.resetState c image).Inv ∧ ((State.resetState c image).withInputsOf s).Inv := by
  have hmem : (Memory.ofImage 0 image).wf = true := Memory.ofImage_wfFrom 0 image (by simpa using hlen)
  exact ⟨⟨hmem, hc, rfl⟩, hmem, hc, rfl⟩

theorem resetWith_of_fits {c : Config} {image : List Byte} (hc : c.wellFormed = true) (hlen : image.length ≤ 256) :
    resetWith c image = .next (State.resetState c image) := by
  simp [resetWith, hc, imageWellFormed, hlen]

theorem resetWith_of_too_long {c : Config} {image : List Byte} (hc : c.wellFormed = true) (hlen : 256 < image.length) :
    resetWith c image = .refused .imageTooLong := by
  simp [resetWith, hc, imageWellFormed, hlen]

theorem State.resetEvent_of_next {s u : State} {image : List Byte} (h : resetWith s.cfg image = .next u) :
    s.resetEvent image = .next (u.withInputsOf s) := by
  simp only [State.resetEvent, h]

theorem State.resetEvent_of_refused {s : State} {image : List Byte} {r : Refusal}
    (h : resetWith s.cfg image = .refused r) : s.resetEvent image = .refused r := by
  simp only [State.resetEvent, h]

/-- Settles O45: an image that fits gives `State.resetState`, a longer one is refused. -/
theorem resetLoadsImageAndZeros : Obligations.ResetLoadsImageAndZeros := by
  intro c image hc
  refine ⟨fun hlen => ?fits, resetWith_of_too_long hc⟩
  case fits =>
    have hinv := (State.resetState_inv hc hlen (State.resetState c image)).1
    exact ⟨_, resetWith_of_fits hc hlen, State.resetState_memRead c image, State.resetState_reg c image, rfl, rfl, rfl,
      rfl, rfl, rfl, rfl, hinv⟩

/-- Settles O44: `State.reset` is what the default parameters and an empty image give. -/
theorem resetValues : Obligations.ResetValues :=
  ⟨State.resetState_reg .default [], rfl, rfl, rfl, rfl, fun _ => rfl, rfl, rfl, rfl,
    resetWith_of_fits default_wellFormed (Nat.zero_le _)⟩

/-- Settles O46: the event answers `resetWith` for the parameters kept, with the inputs kept. -/
theorem resetEventForgetsTheOldState : Obligations.ResetEventForgetsTheOldState := by
  refine ⟨fun s u image hu => ?next, fun s image r => State.resetEvent_of_refused,
    fun s s' image hcfg hirq hcount hc hlen => ?same⟩
  case next =>
    obtain ⟨rfl, hc, hlen⟩ := resetWith_next hu
    exact ⟨_, State.resetEvent_of_next hu, rfl, (State.resetState_inv hc hlen s).2⟩
  case same =>
    have hfits := resetWith_of_fits hc hlen
    have hs := State.resetEvent_of_next hfits
    have hs' := State.resetEvent_of_next (s := s') (hcfg ▸ hfits)
    refine ⟨?_, _, hs, rfl, rfl, rfl, (State.resetState_inv hc hlen s).2⟩
    rw [hs, hs', State.withInputsOf, State.withInputsOf, hcfg, hirq, hcount]

/-- Settles O47: `State.reset` is a reset state of the default parameters. -/
theorem invariantHoldsAtReset : Obligations.InvariantHoldsAtReset :=
  (State.resetState_inv default_wellFormed (image := []) (Nat.zero_le _) State.reset).1

end Sys2Proof.Machine
